-- ==== Sys2Proof/Word.lean ====
section
/-!
DEFINITION. Word.lean: the two widths of CORE (00_scope.md rule R6: REG_WIDTH and BYTE_WIDTH are 8; PAIR_WIDTH,
PC_WIDTH, SP_WIDTH and ADDR_WIDTH are 16). All arithmetic is unsigned and modular (42_inc_dec.md rule R100), which is
`BitVec` addition and subtraction.
-/

namespace Sys2Proof

/-- A register cell, a memory cell, an opcode or an 8-bit immediate. -/
abbrev Byte := BitVec 8

/-- A register pair, pc, sp, a memory address or a 16-bit immediate. -/
abbrev Word := BitVec 16

end Sys2Proof
end

