-- ==== Sys2Proof/Syntax.lean ====
section
/-!
DEFINITION. Syntax.lean: the nine instructions of CORE, one constructor for each row of the opcode table
(30_encoding.md rule R66). Decode is flat: no instruction carries a register number (rule R67), so the only operands are the
immediates `n` (rule R68) and `nn` (rule R69).
-/

namespace Sys2Proof

/-- An instruction of CORE. -/
inductive Instr where
  /-- 0x00 NOP (rule R92). -/
  | nop
  /-- 0x01 LD BC,nn (rule R96). -/
  | ldBCnn (nn : Word)
  /-- 0x02 LD (BC),A (rule R97). -/
  | ldBCA
  /-- 0x03 INC BC (rule R102). -/
  | incBC
  /-- 0x04 INC B (rule R103). -/
  | incB
  /-- 0x05 DEC B (rule R104). -/
  | decB
  /-- 0x06 LD B,n (rule R98). -/
  | ldBN (n : Byte)
  /-- 0x07 RLCA (rule R108). -/
  | rlca
  /-- 0x08 LD (nn),SP (rule R99). -/
  | ldnnSP (nn : Word)
  deriving DecidableEq, Repr

end Sys2Proof
end

