-- ==== Sys2Proof/WellFormed.lean ====
section
/-!
DEFINITION. WellFormed.lean: the checks the spec makes on the data handed to CORE. An instruction has nothing to check: all
256 values of `n` and all 65536 values of `nn` are legal (30_encoding.md rules R68, R69 and R72), and the operand types admit
no other. What can be ill-formed is what the host or a caller of the register file supplies: a cell index (10_state.md rule
R14), the two indices of a pair (rule R19), and a ROM image with its load address (20_memory.md rule R47).
-/

namespace Sys2Proof

/-- Every instruction is well-formed (rule R72: the operand bytes are never illegal). -/
def Instr.WellFormed : Instr → Bool
  | .nop => true
  | .ldBCnn _ => true
  | .ldBCA => true
  | .incBC => true
  | .incB => true
  | .decB => true
  | .ldBN _ => true
  | .rlca => true
  | .ldnnSP _ => true

/-- A cell index is one of 0 to 7 (rules R10 and R14). -/
def validCellIndex (i : Nat) : Bool := decide (i < 8)

/-- The indices of a pair are two distinct cell indices (rule R19, decision D18). -/
def validPairIndices (lo hi : Nat) : Bool :=
  validCellIndex lo && validCellIndex hi && decide (lo ≠ hi)

/-- `len` bytes placed at `start` end at the last byte of memory or before (rule R47: `start + len = 65536` is allowed). -/
def imageFits (start : Word) (len : Nat) : Bool := decide (start.toNat + len ≤ 65536)

end Sys2Proof
end

