-- ==== Sys2Proof/Decode.lean ====
section
/-!
DEFINITION. Decode.lean: the opcode table, the decoder and the encoder (30_encoding.md rules R63 to R73; 40_step_cycle.md rule
R84), and the little-endian composition of two bytes (20_memory.md rule R44), which decoding shares with the machine.
-/

namespace Sys2Proof

/-- The 16-bit value with `lo` in bits 7 to 0 and `hi` in bits 15 to 8: `hi ++ lo` (rule R44). -/
def composeWord (lo hi : Byte) : Word := hi ++ lo

/-- `v[7:0]`. -/
def lowByte (v : Word) : Byte := v.extractLsb' 0 8

/-- `v[15:8]`. -/
def highByte (v : Word) : Byte := v.extractLsb' 8 8

/-- The three formats of rule R63. -/
inductive Format where
  | op
  | opN
  | opNN
  deriving DecidableEq, Repr

/-- The instruction an opcode byte selects, before its operands are known: one constructor per row of rule R66. -/
inductive Opcode where
  | nop
  | ldBCnn
  | ldBCA
  | incBC
  | incB
  | decB
  | ldBN
  | rlca
  | ldnnSP
  deriving DecidableEq, Repr

/-- First column of rule R66. -/
def Opcode.byte : Opcode → Byte
  | .nop => 0x00
  | .ldBCnn => 0x01
  | .ldBCA => 0x02
  | .incBC => 0x03
  | .incB => 0x04
  | .decB => 0x05
  | .ldBN => 0x06
  | .rlca => 0x07
  | .ldnnSP => 0x08

/-- Fourth column of rule R66. -/
def Opcode.format : Opcode → Format
  | .nop => .op
  | .ldBCnn => .opNN
  | .ldBCA => .op
  | .incBC => .op
  | .incB => .op
  | .decB => .op
  | .ldBN => .opN
  | .rlca => .op
  | .ldnnSP => .opNN

/-- Second column of rule R63: the length in bytes. -/
def Format.length : Format → Nat
  | .op => 1
  | .opN => 2
  | .opNN => 3

/-- Fifth column of rule R66; a function of the opcode byte alone (rule R65). -/
def Opcode.length (o : Opcode) : Nat := o.format.length

/-- The rows of rule R66 in table order. -/
def Opcode.all : List Opcode := [.nop, .ldBCnn, .ldBCA, .incBC, .incB, .decB, .ldBN, .rlca, .ldnnSP]

/-- What decoding an opcode byte gives (rule R71): an instruction of the table, or the explicit unrecognized verdict. -/
inductive Verdict where
  | recognized (o : Opcode)
  | unrecognized (op : Byte)
  deriving DecidableEq, Repr

/-- `decode(op)` of rule R84: a function of the opcode byte alone, total on all 256 values; the nine bytes of the table are
recognized and the other 247 are not (rules R66 and R71). -/
def decodeOpcode (op : Byte) : Verdict :=
  match Opcode.all.find? (fun o => o.byte == op) with
  | some o => .recognized o
  | none => .unrecognized op

/-- The instruction of an opcode with the 8-bit immediate `n` and the 16-bit immediate `nn`, of which each format takes its
own (rule R63): OP neither, OP_N the first, OP_NN the second. -/
def Opcode.instr (o : Opcode) (n : Byte) (nn : Word) : Instr :=
  match o with
  | .nop => .nop
  | .ldBCnn => .ldBCnn nn
  | .ldBCA => .ldBCA
  | .incBC => .incBC
  | .incB => .incB
  | .decB => .decB
  | .ldBN => .ldBN n
  | .rlca => .rlca
  | .ldnnSP => .ldnnSP nn

/-- The row of the opcode table an instruction belongs to. -/
def Instr.opcode : Instr → Opcode
  | .nop => .nop
  | .ldBCnn _ => .ldBCnn
  | .ldBCA => .ldBCA
  | .incBC => .incBC
  | .incB => .incB
  | .decB => .decB
  | .ldBN _ => .ldBN
  | .rlca => .rlca
  | .ldnnSP _ => .ldnnSP

/-- The length of an instruction in bytes: the amount pc advances (rule R65; 40_step_cycle.md rule R88). -/
def Instr.length (i : Instr) : Nat := i.opcode.length

/-- The outcome of decoding a byte sequence. -/
inductive Decoded where
  /-- The first instruction and the bytes after it. -/
  | insn (i : Instr) (rest : List Byte)
  /-- The first byte is no opcode of the table (rule R71). The bytes after it are not examined (rule R73). -/
  | unrecognized (op : Byte)
  /-- The bytes end before the instruction does. Memory never runs out (it wraps), so no step meets this (DESIGN CHOICE: assumption log 17). -/
  | truncated
  deriving DecidableEq, Repr

/-- Decode the first instruction of a byte sequence in memory order (rule R64). -/
def decode : List Byte → Decoded
  | [] => .truncated
  | op :: rest =>
    match decodeOpcode op with
    | .unrecognized op => .unrecognized op
    | .recognized o =>
      match o.format, rest with
      | .op, rest => .insn (o.instr 0 0) rest
      | .opN, n :: rest => .insn (o.instr n 0) rest
      | .opNN, lo :: hi :: rest => .insn (o.instr 0 (composeWord lo hi)) rest
      | _, _ => .truncated

/-- The operand bytes after the opcode, in memory order (rules R63 and R75). -/
def Instr.operandBytes : Instr → List Byte
  | .nop => []
  | .ldBCnn nn => [lowByte nn, highByte nn]
  | .ldBCA => []
  | .incBC => []
  | .incB => []
  | .decB => []
  | .ldBN n => [n]
  | .rlca => []
  | .ldnnSP nn => [lowByte nn, highByte nn]

/-- The bytes of an instruction in memory order: "emit the opcode byte, then n, or then nn[7:0] followed by nn[15:8]"
(rule R75). -/
def encode (i : Instr) : List Byte := i.opcode.byte :: i.operandBytes

/-- The bytes of an instruction whose bits are `w`, numbered as the opcode table numbers them: the first byte is bits 7 to 0,
the second bits 15 to 8, the third bits 23 to 16. Bits at `nbits` and above are 0. Three bytes: the longest instruction. -/
def tableBytes (nbits w : Nat) : List Byte :=
  let v := w % 2 ^ nbits
  [BitVec.ofNat 8 v, BitVec.ofNat 8 (v / 256), BitVec.ofNat 8 (v / 65536)]

/-- The instruction the decoder reads from an opcode-table word, or none where it refuses. -/
def decodeTableWord (nbits w : Nat) : Option Instr :=
  match decode (tableBytes nbits w) with
  | .insn i _ => some i
  | .unrecognized _ => none
  | .truncated => none

end Sys2Proof
end

