-- ==== Sys2Proof/Machine/State.lean ====
section
/-!
DEFINITION. Machine/State.lean: the complete architectural state of CORE (10_state.md rule R35), the state after power-on
(rule R36), and the names under which the model's operations stop. State is plain data.
-/

namespace Sys2Proof.Machine

/-- The eight register cells by name (10_state.md rule R11). Their indices are in Machine/Ops.lean (`Reg.index`). -/
inductive Reg where
  | a | f | b | c | d | e | h | l
  deriving DecidableEq, Repr

/-- The register file: eight 8-bit cells, one of which is the flags byte (rules R10 and R12). Pairs are views, not storage
(rule R21). -/
structure RegFile where
  /-- The accumulator. -/
  a : Byte
  /-- The flags byte: Z, N, H, C in bits 7 to 4 (rule R22). All eight bits are storage (rules R13 and R31). -/
  f : Byte
  b : Byte
  c : Byte
  d : Byte
  e : Byte
  h : Byte
  l : Byte
  deriving DecidableEq, Repr

/-- Memory as (address, byte) pairs. The canonical form is `Memory.wf` (Machine/Ops.lean): addresses strictly rising, each
below 65536, and no byte equal to what an unlisted address reads as. -/
abbrev Memory := List Host.Cell

/-- What the fault latch holds (10_state.md rule R34): the offending opcode byte and the address it was fetched from. -/
structure FaultReport where
  opcode  : Byte
  address : Word
  deriving DecidableEq, Repr

/-- The complete state of CORE (rule R35). -/
structure State where
  /-- The register file (rule R10). -/
  r     : RegFile
  /-- The program counter (rule R28). -/
  pc    : Word
  /-- The stack pointer (rule R29). -/
  sp    : Word
  /-- The 65536 bytes of memory (20_memory.md rule R40). -/
  mem   : Memory
  /-- The fault latch (rule R34): none while the core runs. -/
  fault : Option FaultReport
  deriving DecidableEq, Repr

/-- The state at power-on, before any ROM load: every piece of state is zero (rules R36 and R142). No program is in memory:
the host loads one (Machine/Session.lean; DESIGN CHOICE: assumption log 9). -/
def State.reset : State where
  r := { a := 0, f := 0, b := 0, c := 0, d := 0, e := 0, h := 0, l := 0 }
  pc := 0
  sp := 0
  mem := []
  fault := none

/-- Why the machine stops with a fault. An unrecognized opcode is not here: it has an effect the spec describes, so a step
takes it as a next state with the latch set (60_exceptions.md rule R123; UNVERIFIED: assumption log 5). -/
inductive Fault where
  /-- LoadOutOfBounds (60_exceptions.md rule R124). Raised by `load` and so by the host's ROM load when the image does not fit;
  no instruction raises it. Safe: nothing is written and there is no run. -/
  | loadOutOfBounds
  deriving DecidableEq, Repr

/-- Why an operation has no meaning. No instruction of CORE and no step answers with one of these. -/
inductive Refusal where
  /-- An instruction without a meaning in the model, by its mnemonic. Nothing raises it: all nine have one. Safe. -/
  | notModelled (mnemonic : String)
  /-- InvalidRegisterIndex (60_exceptions.md rule R125): a raw register operation was given an index outside 0 to 7. Raised by
  the operations of Machine/RegisterPort.lean only. Safe. -/
  | invalidRegisterIndex (index : Nat)
  /-- A raw pair operation was given the same index twice (10_state.md rule R19). Raised by Machine/RegisterPort.lean only.
  Safe. -/
  | equalPairIndices (index : Nat)
  /-- A host move the spec does not allow at that point (50_interfaces.md rules R111 and R120). Raised by `hostMove` only.
  Safe. -/
  | hostMoveOutOfOrder
  deriving DecidableEq, Repr

end Sys2Proof.Machine
end

