-- ==== Sys2Proof/Machine/Ops.lean ====
section
/-!
DEFINITION. Machine/Ops.lean: the named operations over registers and memory (00_scope.md section 6), the advancement of pc,
and taking the one exception. Pairs, cells and memory are read and written through these and nowhere else.
-/

namespace Sys2Proof.Machine

/-! ## Register cells (10_state.md rules R10 to R18) -/

/-- The cell index of each named register (rule R11, decision D1; UNVERIFIED: assumption log 8). -/
def Reg.index : Reg → Nat
  | .a => 0
  | .f => 1
  | .b => 2
  | .c => 3
  | .d => 4
  | .e => 5
  | .h => 6
  | .l => 7

/-- The register with a given cell index, if there is one. -/
def Reg.ofIndex (i : Nat) : Option Reg :=
  [Reg.a, .f, .b, .c, .d, .e, .h, .l].find? (fun x => x.index == i)

/-- `r[i]`: the value of a cell; reading changes nothing (rule R10). -/
def RegFile.get (r : RegFile) : Reg → Byte
  | .a => r.a
  | .f => r.f
  | .b => r.b
  | .c => r.c
  | .d => r.d
  | .e => r.e
  | .h => r.h
  | .l => r.l

/-- `r[i] <- v`: all eight bits, into that cell alone; no masking, also not for F (rule R13). -/
def RegFile.set (r : RegFile) (i : Reg) (v : Byte) : RegFile :=
  match i with
  | .a => { r with a := v }
  | .f => { r with f := v }
  | .b => { r with b := v }
  | .c => { r with c := v }
  | .d => { r with d := v }
  | .e => { r with e := v }
  | .h => { r with h := v }
  | .l => { r with l := v }

/-- `get_pair(lo, hi)` = `r[hi] ++ r[lo]` (rule R15), for distinct cells; the raw port refuses equal ones (rule R19). -/
def RegFile.getPair (r : RegFile) (lo hi : Reg) : Word := composeWord (r.get lo) (r.get hi)

/-- `set_pair(lo, hi, v)`: `r[lo] <- v[7:0]; r[hi] <- v[15:8]` (rule R16), for distinct cells. -/
def RegFile.setPair (r : RegFile) (lo hi : Reg) (v : Word) : RegFile :=
  (r.set lo (lowByte v)).set hi (highByte v)

/-- The four canonical pairs (rule R17). -/
inductive Pair where
  | af | bc | de | hl
  deriving DecidableEq, Repr

/-- The low-order register of a pair: the second-named one (rule R17, decision D2; UNVERIFIED: assumption log 1). -/
def Pair.lo : Pair → Reg
  | .af => .f
  | .bc => .c
  | .de => .e
  | .hl => .l

/-- The high-order register of a pair: the first-named one (rule R17, decision D2; UNVERIFIED: assumption log 1). -/
def Pair.hi : Pair → Reg
  | .af => .a
  | .bc => .b
  | .de => .d
  | .hl => .h

/-- Read a cell of the state. -/
def State.getReg (s : State) (i : Reg) : Byte := s.r.get i

/-- Write a cell of the state. -/
def State.setReg (s : State) (i : Reg) (v : Byte) : State := { s with r := s.r.set i v }

/-- Read a canonical pair of the state. -/
def State.getPair (s : State) (p : Pair) : Word := s.r.getPair p.lo p.hi

/-- Write a canonical pair of the state. -/
def State.setPair (s : State) (p : Pair) (v : Word) : State := { s with r := s.r.setPair p.lo p.hi v }

/-! ## Memory (20_memory.md rules R40 to R47) -/

/-- What an address that memory does not list reads as: 0x00, the power-on value of every byte (10_state.md rule R36, decision
D4; UNVERIFIED: assumption log 6). -/
def unlistedByte : Byte := 0x00

/-- The byte at key `k`: the first entry for it, or the unlisted byte. -/
def Memory.lookup : Memory → Nat → Byte
  | [], _ => unlistedByte
  | (k', v) :: rest, k => if k' = k then v else Memory.lookup rest k

/-- Put an entry before the first one whose key is larger. -/
def Memory.insertCell : Memory → Nat → Byte → Memory
  | [], k, v => [(k, v)]
  | (k', v') :: rest, k, v =>
    if k < k' then (k, v) :: (k', v') :: rest else (k', v') :: Memory.insertCell rest k v

/-- Drop every entry for key `k`. -/
def Memory.erase (m : Memory) (k : Nat) : Memory := m.filter (fun c => c.1 != k)

/-- Make key `k` read as `v`, keeping the canonical form: the unlisted byte is not listed. -/
def Memory.store (m : Memory) (k : Nat) (v : Byte) : Memory :=
  if v = unlistedByte then m.erase k else (m.erase k).insertCell k v

/-- `read_byte(address)`: total, no side effect (rules R41 and R43). -/
def Memory.readByte (m : Memory) (a : Word) : Byte := m.lookup a.toNat

/-- `write_byte(address, byte)`: total; changes that one cell (rule R42). -/
def Memory.writeByte (m : Memory) (a : Word) (v : Byte) : Memory := m.store a.toNat v

/-- The canonical form: addresses strictly rising, inside the address space, and no entry equal to the unlisted byte. -/
abbrev Memory.wf (m : Memory) : Prop :=
  m.Pairwise (fun x y => x.1 < y.1) ∧ ∀ c ∈ m, c.1 < 65536 ∧ c.2 ≠ unlistedByte

/-- Read one byte of the state's memory. -/
def State.readByte (s : State) (a : Word) : Byte := s.mem.readByte a

/-- Write one byte of the state's memory. -/
def State.writeByte (s : State) (a : Word) (v : Byte) : State := { s with mem := s.mem.writeByte a v }

/-- `MemRead(addr, 2)`: the byte at `addr` is the low-order one; the second address wraps (rule R45, decision D7; UNVERIFIED: assumption
log 2). -/
def State.readWord (s : State) (a : Word) : Word := composeWord (s.readByte a) (s.readByte (a + 1))

/-- `MemWrite(addr, 2, v)`: two byte writes, low-order byte first at `addr`; the second address wraps (rule R46, decisions D6,
D7 and D12; UNVERIFIED: assumption log 2 and 3). -/
def State.writeWord (s : State) (a : Word) (v : Word) : State :=
  (s.writeByte a (lowByte v)).writeByte (a + 1) (highByte v)

/-- Place bytes at rising keys from `k` on. -/
def Memory.storeAll : Memory → Nat → List Byte → Memory
  | m, _, [] => m
  | m, k, v :: rest => Memory.storeAll (m.store k v) (k + 1) rest

/-- `load(start, bytes)` (rule R47): fails with LoadOutOfBounds and writes nothing if the bytes do not fit, else places them;
it does not wrap and touches no register (decision D11; UNVERIFIED: assumption log 11). -/
def load (start : Word) (bytes : List Byte) (s : State) : Host.Outcome State Fault Refusal :=
  if imageFits start bytes.length then .next { s with mem := s.mem.storeAll start.toNat bytes }
  else .fault .loadOutOfBounds

/-! ## The program counter, the exception, and the stopped core -/

/-- `pc <- (pc + length) mod 65536`, and nothing else (40_step_cycle.md rules R88 and R89, decision D7; UNVERIFIED: assumption log 2). -/
def advancePc (length : Nat) (s : State) : State := { s with pc := s.pc + BitVec.ofNat 16 length }

/-- The end of every instruction: pc advances by the instruction's length after its handler has run (rules R85 and R88). -/
def complete (i : Instr) (handled : State) : Host.Outcome State Fault Refusal :=
  .next (advancePc i.length handled)

/-- TAKING THE EXCEPTION UnrecognizedOpcode(op, pc) (60_exceptions.md rule R123): the latch takes the offending byte and pc;
the registers, pc, sp and memory are exactly as before. There is no vector, handler, saved status or mode (rule R129), and no
return from it (rule R130). UNVERIFIED: assumption log 5. -/
def takeUnrecognizedOpcode (op : Byte) (s : State) : State :=
  { s with fault := some { opcode := op, address := s.pc } }

/-- The step whose opcode is not in the table: a next state with the exception taken (40_step_cycle.md rule R80). -/
def raiseUnrecognizedOpcode (op : Byte) (s : State) : Host.Outcome State Fault Refusal :=
  .next (takeUnrecognizedOpcode op s)

/-- A step of a stopped core leaves the whole state as it is, latch included (60_exceptions.md rule R129, decision D9;
UNVERIFIED: assumption log 5). -/
def stayStopped (s : State) : Host.Outcome State Fault Refusal := .next s

end Sys2Proof.Machine
end

