-- ==== Sys2Proof/Machine/Operands.lean ====
section
/-!
DEFINITION. Machine/Operands.lean: the four operand-addressing modes of CORE (41_loads_stores.md rule R95). Operand fetch is a
pure read relative to pc, which still holds the address of the opcode (40_step_cycle.md rule R83; 10_state.md rule R28).
-/

namespace Sys2Proof.Machine

/-- Mode (a), immediate 8-bit: `n = MemRead((pc + 1) mod 65536, 1)` (30_encoding.md rule R68). -/
def immediate8 (s : State) : Byte := s.readByte (s.pc + 1)

/-- Mode (b), immediate 16-bit: `nn = MemRead((pc + 1) mod 65536, 2)` (30_encoding.md rule R69). -/
def immediate16 (s : State) : Word := s.readWord (s.pc + 1)

/-- Mode (c), register indirect through BC: the address is BC as it is (rule R97). -/
def addressBC (s : State) : Word := s.getPair .bc

/-- Mode (d), absolute 16-bit: the addresses of the low-order and of the high-order byte at the immediate `nn` (rule R99). -/
def addressAbsolute (nn : Word) : Word × Word := (nn, nn + 1)

end Sys2Proof.Machine
end

