-- ==== Sys2Proof/Machine/Control.lean ====
section
/-!
DEFINITION. Machine/Control.lean: NOP (40_step_cycle.md rule R92), the one instruction with no effect of its own. CORE has no
control transfer (rule R90) and no system instruction (rule R91).
-/

namespace Sys2Proof.Machine

/-- NOP (rule R92): the handler changes nothing; pc advances by 1. -/
def execNop (s : State) : Host.Outcome State Fault Refusal := complete .nop s

end Sys2Proof.Machine
end

