-- ==== Sys2Proof/Machine/Flags.lean ====
section
/-!
DEFINITION. Machine/Flags.lean: the flags codec (10_state.md rules R22 to R27) and every flag computation of the instruction
rules (42_inc_dec.md rules R101, R103 and R104; 43_rotate.md rule R108).
-/

namespace Sys2Proof.Machine

/-- The four flags (rule R22): zero, subtraction, half-carry, carry. -/
structure Flags where
  z : Bool
  n : Bool
  h : Bool
  c : Bool
  deriving DecidableEq, Repr

/-- A flag as a byte: true is 1 and false is 0. -/
def flagBit (v : Bool) : Byte := if v then 1 else 0

/-- `encode(flags)` = `(z << 7) | (n << 6) | (h << 5) | (c << 4)` (rule R23). -/
def encodeFlags (x : Flags) : Byte :=
  (flagBit x.z <<< 7) ||| (flagBit x.n <<< 6) ||| (flagBit x.h <<< 5) ||| (flagBit x.c <<< 4)

/-- `decode(byte)` = `(byte[7], byte[6], byte[5], byte[4])`; bits 3 to 0 are ignored (rule R24). -/
def decodeFlags (v : Byte) : Flags :=
  { z := v.getLsbD 7, n := v.getLsbD 6, h := v.getLsbD 5, c := v.getLsbD 4 }

/-- `get_flags()` (rule R26). -/
def State.flags (s : State) : Flags := decodeFlags (s.getReg .f)

/-- `set_flags(z, n, h, c)`: a `none` leaves its flag unchanged; the write goes through `encode`, so bits 3 to 0 of F become 0
(rule R27). -/
def State.setFlags (s : State) (z n h c : Option Bool) : State :=
  let old := s.flags
  s.setReg .f (encodeFlags
    { z := z.getD old.z, n := n.getD old.n, h := h.getD old.h, c := c.getD old.c })

/-- Z of INC B and DEC B: the result is 0 (rules R103 and R104). -/
def isZero (result : Byte) : Bool := result == 0

/-- H of an increment: the low nibble of the operand before it was 0xF (rule R101). -/
def incHalfCarry (old : Byte) : Bool := old.extractLsb' 0 4 == 0xF

/-- H of a decrement: the low nibble of the operand before it was 0x0 (rule R101). -/
def decHalfCarry (old : Byte) : Bool := old.extractLsb' 0 4 == 0x0

/-- C of RLCA: the bit rotated out of bit 7 (rule R108, decision D8; UNVERIFIED: assumption log 4). -/
def rotatedOut (old : Byte) : Bool := old.getLsbD 7

end Sys2Proof.Machine
end

