-- ==== Sys2Proof/Machine/IncDec.lean ====
section
/-!
DEFINITION. Machine/IncDec.lean: INC BC, INC B, DEC B (42_inc_dec.md rules R100 to R104). Flags are computed from the value
before the operation (rule R101).
-/

namespace Sys2Proof.Machine

/-- INC BC (rule R102): BC plus 1 modulo 65536; no flag is written. -/
def execIncBC (s : State) : Host.Outcome State Fault Refusal :=
  complete .incBC (s.setPair .bc (s.getPair .bc + 1))

/-- INC B (rule R103): B plus 1 modulo 256; Z and H computed, N cleared, C unchanged. -/
def execIncB (s : State) : Host.Outcome State Fault Refusal :=
  let old := s.getReg .b
  let new := old + 1
  complete .incB
    ((s.setReg .b new).setFlags (some (isZero new)) (some false) (some (incHalfCarry old)) none)

/-- DEC B (rule R104): B minus 1 modulo 256; Z and H computed, N set, C unchanged. -/
def execDecB (s : State) : Host.Outcome State Fault Refusal :=
  let old := s.getReg .b
  let new := old - 1
  complete .decB
    ((s.setReg .b new).setFlags (some (isZero new)) (some true) (some (decHalfCarry old)) none)

end Sys2Proof.Machine
end

