-- ==== Sys2Proof/Machine/LoadStore.lean ====
section
/-!
DEFINITION. Machine/LoadStore.lean: LD BC,nn; LD (BC),A; LD B,n; LD (nn),SP (41_loads_stores.md rules R96 to R99). Immediates
arrive already fetched (40_step_cycle.md rules R83 and R86). None of them writes a flag.
-/

namespace Sys2Proof.Machine

/-- LD BC,nn (rule R96): `C <- nn[7:0]; B <- nn[15:8]`. -/
def execLdBCnn (nn : Word) (s : State) : Host.Outcome State Fault Refusal :=
  complete (.ldBCnn nn) (s.setPair .bc nn)

/-- LD (BC),A (rule R97): `mem[BC] <- A`; BC and A are unchanged. -/
def execLdBCA (s : State) : Host.Outcome State Fault Refusal :=
  complete .ldBCA (s.writeByte (addressBC s) (s.getReg .a))

/-- LD B,n (rule R98): `B <- n`. -/
def execLdBN (n : Byte) (s : State) : Host.Outcome State Fault Refusal :=
  complete (.ldBN n) (s.setReg .b n)

/-- LD (nn),SP (rule R99): `mem[nn] <- sp[7:0]; mem[(nn + 1) mod 65536] <- sp[15:8]`; sp is only read. -/
def execLdnnSP (nn : Word) (s : State) : Host.Outcome State Fault Refusal :=
  complete (.ldnnSP nn) (s.writeWord (addressAbsolute nn).1 s.sp)

end Sys2Proof.Machine
end

