-- ==== Sys2Proof/Machine/Rotate.lean ====
section
/-!
DEFINITION. Machine/Rotate.lean: RLCA (43_rotate.md rules R108 to R110).
-/

namespace Sys2Proof.Machine

/-- One place to the left, circularly: `old[6:0] ++ old[7]` (rule R108). -/
def rotateLeftCircular (old : Byte) : Byte := old.extractLsb' 0 7 ++ old.extractLsb' 7 1

/-- RLCA (rule R108): A rotates left circularly; Z, N and H are cleared and C takes the bit rotated out of bit 7. The flags are
the spec's decision D8 (UNVERIFIED: assumption log 4). -/
def execRlca (s : State) : Host.Outcome State Fault Refusal :=
  let old := s.getReg .a
  complete .rlca
    ((s.setReg .a (rotateLeftCircular old)).setFlags (some false) (some false) (some false)
      (some (rotatedOut old)))

end Sys2Proof.Machine
end

