-- ==== Sys2Proof/Machine/Dispatch.lean ====
section
/-!
DEFINITION. Machine/Dispatch.lean: the meaning of each instruction, one arm per constructor (40_step_cycle.md rule R85). `exec` is
the execute phase and the advance of pc; it does not look at the fault latch, which `step` tests first (DESIGN CHOICE: assumption
log 18).
-/

namespace Sys2Proof.Machine

def exec (i : Instr) (s : State) : Host.Outcome State Fault Refusal :=
  match i with
  | .nop => Sys2Proof.Machine.execNop s
  | .ldBCnn nn => Sys2Proof.Machine.execLdBCnn nn s
  | .ldBCA => Sys2Proof.Machine.execLdBCA s
  | .incBC => Sys2Proof.Machine.execIncBC s
  | .incB => Sys2Proof.Machine.execIncB s
  | .decB => Sys2Proof.Machine.execDecB s
  | .ldBN n => Sys2Proof.Machine.execLdBN n s
  | .rlca => Sys2Proof.Machine.execRlca s
  | .ldnnSP nn => Sys2Proof.Machine.execLdnnSP nn s

end Sys2Proof.Machine
end

