-- ==== Sys2Proof/Machine/Fetch.lean ====
section
/-!
DEFINITION. Machine/Fetch.lean: the fetch and decode phases of a step (40_step_cycle.md rules R82 to R84), and placing an
instruction where the next step fetches it.
-/

namespace Sys2Proof.Machine

/-- What the fetch and decode phases find at pc. -/
inductive Fetched where
  | insn (i : Instr)
  | unrecognized (op : Byte)
  deriving DecidableEq, Repr

/-- Read the opcode at pc, decode it, and take the operands its format has; an unrecognized opcode takes none (rules R82, R83
and R84). It changes nothing: all bytes come from memory as it is before the execute phase (rule R86). -/
def fetch (s : State) : Fetched :=
  match decodeOpcode (s.readByte s.pc) with
  | .recognized o => .insn (o.instr (immediate8 s) (immediate16 s))
  | .unrecognized op => .unrecognized op

/-- The bytes at `a`, `a + 1`, ... (wrapping) become `bytes`. -/
def State.placeBytes : State → Word → List Byte → State
  | s, _, [] => s
  | s, a, v :: rest => State.placeBytes (s.writeByte a v) (a + 1) rest

/-- The opcode-table word as bytes at pc, and the latch clear, which the fetch needs (DESIGN CHOICE: assumption log 9). -/
def State.placeTableWord (s : State) (nbits w : Nat) : State :=
  { s.placeBytes s.pc (tableBytes nbits w) with fault := none }

end Sys2Proof.Machine
end

