-- ==== Sys2Proof/Machine/Step.lean ====
section
/-!
DEFINITION. Machine/Step.lean: one fetch-decode-execute cycle (40_step_cycle.md rule R80).
-/

namespace Sys2Proof.Machine

/-- `step()` (rule R80): a stopped core does nothing; an unrecognized opcode raises its exception; any other opcode fetches its
operands, executes, and advances pc (which `exec` does). The diagnostic dump changes no state and is in
Machine/Diagnostics.lean. -/
def step (s : State) : Host.Outcome State Fault Refusal :=
  match s.fault with
  | some _ => stayStopped s
  | none =>
    match fetch s with
    | .unrecognized op => raiseUnrecognizedOpcode op s
    | .insn i => exec i s

/-- `s` with the instruction of an opcode-table word stored where the next step fetches (DESIGN CHOICE: assumption log 9). -/
def State.withFetchWord (s : State) (nbits w : Nat) : State := s.placeTableWord nbits w

end Sys2Proof.Machine
end

