-- ==== Sys2Proof/Machine/Bus.lean ====
section
/-!
DEFINITION. Machine/Bus.lean: the byte transactions one step makes with the memory bus, in order (20_memory.md rules R49 and
R59; 50_interfaces.md rule R118; decisions D12 and D21; UNVERIFIED: assumption log 14). The history is an observation of a step, not state
(10_state.md rule R35 is complete without it).
-/

namespace Sys2Proof.Machine

/-- One transaction: `read_byte` with the byte it answered, or `write_byte` with the byte it stored. -/
inductive BusAccess where
  | read (a : Word) (answer : Byte)
  | write (a : Word) (v : Byte)
  deriving DecidableEq, Repr

/-- The number of instruction bytes a step reads: the length of a recognized opcode, and the opcode byte alone of an
unrecognized one (rule R59). -/
def fetchLength (s : State) : Nat :=
  match decodeOpcode (s.readByte s.pc) with
  | .recognized o => o.length
  | .unrecognized _ => 1

/-- The addresses read in the fetch phase: pc, pc + 1, pc + 2 as far as the instruction goes (rule R49). -/
def fetchAddresses (s : State) : List Word :=
  (List.range (fetchLength s)).map (fun k => s.pc + BitVec.ofNat 16 k)

/-- The data writes of the execute phase, low-order byte first (rule R49). -/
def dataWrites (i : Instr) (s : State) : List (Word × Byte) :=
  match i with
  | .nop => []
  | .ldBCnn _ => []
  | .ldBCA => [(addressBC s, s.getReg .a)]
  | .incBC => []
  | .incB => []
  | .decB => []
  | .ldBN _ => []
  | .rlca => []
  | .ldnnSP nn => [((addressAbsolute nn).1, lowByte s.sp), ((addressAbsolute nn).2, highByte s.sp)]

/-- The transactions of the step taken at `s`, in order; a stopped core makes none (60_exceptions.md rule R129). -/
def stepAccesses (s : State) : List BusAccess :=
  match s.fault with
  | some _ => []
  | none =>
    (fetchAddresses s).map (fun a => .read a (s.readByte a)) ++
      (match fetch s with
       | .insn i => (dataWrites i s).map (fun w => .write w.1 w.2)
       | .unrecognized _ => [])

/-- What one transaction does to a memory array outside the block (rule R118): a read changes nothing. -/
def BusAccess.apply (m : Memory) : BusAccess → Memory
  | .read _ _ => m
  | .write a v => m.writeByte a v

end Sys2Proof.Machine
end

