-- ==== Sys2Proof/Machine/RegisterPort.lean ====
section
/-!
DEFINITION. Machine/RegisterPort.lean: the raw operations of the register file, by index (10_state.md rules R10, R13, R15, R16,
R19; 60_exceptions.md rule R125). No instruction uses them (30_encoding.md rule R67): every handler names its cells. An index
outside 0 to 7 and a pair of equal indices are refused by name (UNVERIFIED: assumption log 13).
-/

namespace Sys2Proof.Machine

/-- `get(index)`. -/
def portGet (index : Nat) (s : State) : Host.Outcome Byte Fault Refusal :=
  match Reg.ofIndex index with
  | some i => .next (s.getReg i)
  | none => .refused (.invalidRegisterIndex index)

/-- `set(index, byte)`. -/
def portSet (index : Nat) (v : Byte) (s : State) : Host.Outcome State Fault Refusal :=
  match Reg.ofIndex index with
  | some i => .next (s.setReg i v)
  | none => .refused (.invalidRegisterIndex index)

/-- The two cells of a raw pair operation, or why it is refused: the low index is checked first, then the high one, then that they
differ (DESIGN CHOICE: assumption log 13). -/
def portPair (lo hi : Nat) : Host.Outcome (Reg × Reg) Fault Refusal :=
  match Reg.ofIndex lo, Reg.ofIndex hi with
  | none, _ => .refused (.invalidRegisterIndex lo)
  | some _, none => .refused (.invalidRegisterIndex hi)
  | some i, some j => if i = j then .refused (.equalPairIndices lo) else .next (i, j)

/-- `get_pair(lowIndex, highIndex)`. -/
def portGetPair (lo hi : Nat) (s : State) : Host.Outcome Word Fault Refusal :=
  match portPair lo hi with
  | .next (i, j) => .next (s.r.getPair i j)
  | .fault x => .fault x
  | .refused x => .refused x

/-- `set_pair(lowIndex, highIndex, value)`. -/
def portSetPair (lo hi : Nat) (v : Word) (s : State) : Host.Outcome State Fault Refusal :=
  match portPair lo hi with
  | .next (i, j) => .next { s with r := s.r.setPair i j v }
  | .fault x => .fault x
  | .refused x => .refused x

end Sys2Proof.Machine
end

