-- ==== Sys2Proof/Config.lean ====
section
/-!
DEFINITION. Config.lean: what is fixed for one CORE and not state (10_state.md rule R38; 00_scope.md rule R6).
LOAD_BASE and DIAG_TRIGGER are open parameters that every operation using them takes as an argument, so a claim quantifies
over them. The one value the spec leaves open without making it a parameter is an opaque constant.
-/

namespace Sys2Proof

/-- The two open parameters of rule R6 (decisions D5 and D16; DESIGN CHOICE: assumption log 9 and 10). -/
structure Config where
  /-- LOAD_BASE: the address at which the ROM image is placed (50_interfaces.md rule R113). -/
  loadBase : Word
  /-- DIAG_TRIGGER: the opcode after which a dump is emitted, or none (50_interfaces.md rule R116). -/
  diagTrigger : Option Byte
  deriving DecidableEq, Repr

/-- The defaults that rule R6 gives: LOAD_BASE 0x0000, DIAG_TRIGGER none. -/
def Config.default : Config := { loadBase := 0x0000, diagTrigger := none }

/-- FREE VALUE (DESIGN CHOICE: assumption log 10): whether the program counter shown in a diagnostic dump is the value after the
advancement (true) or before it (false). Rule R116 says this is not in the source; nothing may rest on it. -/
opaque Config.dumpShowsAdvancedPc : Bool

end Sys2Proof
end

