-- ==== Sys2Proof/Machine/Diagnostics.lean ====
section
/-!
DEFINITION. Machine/Diagnostics.lean: the passive diagnostic dump (50_interfaces.md rules R116 and R117; DESIGN CHOICE: assumption log 10).
The source gives what the dump lists and not its text, so it is a record here. It is an observation of a step: no function
of this file gives a state.
-/

namespace Sys2Proof.Machine

/-- The register pairs, flags, stack pointer and program counter of a dump (rule R116). -/
structure RegisterDump where
  af : Word
  bc : Word
  de : Word
  hl : Word
  flags : Flags
  sp : Word
  pc : Word
  deriving DecidableEq, Repr

/-- A diagnostic dump: the registers and the opcode value (rule R116). -/
structure Dump where
  registers : RegisterDump
  opcode : Byte
  deriving DecidableEq, Repr

/-- The registers of `s`, with the program counter value to be shown. -/
def registerDump (s : State) (shownPc : Word) : RegisterDump :=
  { af := s.getPair .af, bc := s.getPair .bc, de := s.getPair .de, hl := s.getPair .hl,
    flags := s.flags, sp := s.sp, pc := shownPc }

/-- The program counter a dump shows: the value before or after the advancement, which the spec leaves open. -/
def dumpPc (before after : Word) : Word := if Config.dumpShowsAdvancedPc then after else before

/-- The dump the step taken at `s` emits: one exactly if the core runs, the opcode is recognized and it equals DIAG_TRIGGER.
The register values are those after the handler (rule R116). -/
def stepDump (cfg : Config) (s : State) : Option Dump :=
  match s.fault, fetch s with
  | some _, _ => none
  | none, .unrecognized _ => none
  | none, .insn i =>
    if cfg.diagTrigger = some i.opcode.byte then
      match exec i s with
      | .next t => some { registers := registerDump t (dumpPc s.pc t.pc), opcode := i.opcode.byte }
      | .fault _ => none
      | .refused _ => none
    else none

end Sys2Proof.Machine
end

