-- ==== Sys2Proof/Machine/Session.lean ====
section
/-!
DEFINITION. Machine/Session.lean: the host's moves (50_interfaces.md rule R111) and the boot sequence (70_reset_and_hazards.md
rule R145). The phase of a session belongs to the host and is not a field of State. DESIGN CHOICE: assumption log 9, 12 and 16; UNVERIFIED: log 11.
-/

namespace Sys2Proof.Machine

/-- ROM load (rule R113): the image at LOAD_BASE; pc is not touched. -/
def romLoad (cfg : Config) (image : List Byte) (s : State) : Host.Outcome State Fault Refusal :=
  load cfg.loadBase image s

/-- The host's moves (rule R111). -/
inductive HostMove where
  | powerOn
  | romLoad (image : List Byte)
  | step
  | stop
  /-- The end of the session, with or without the optional register dump. -/
  | endSession (dump : Bool)
  deriving DecidableEq, Repr

/-- Where a session stands. -/
inductive Session where
  | off
  | poweredOn (s : State)
  | running (s : State)
  | halted (s : State)
  | ended
  deriving DecidableEq, Repr

/-- What the host gets back from a move (the last column of rule R111). -/
inductive HostReply where
  | nothing
  | loaded
  /-- From a step: the fault report that the latch holds after it (rule R115), and the dump (rule R116). -/
  | stepped (report : Option FaultReport) (dump : Option Dump)
  /-- From the end of the session: the optional register dump. -/
  | closed (dump : Option RegisterDump)
  deriving DecidableEq, Repr

/-- The register dump at the end of a session, if the host asks for it, whatever DIAG_TRIGGER is: rule R111 gives the dump, rule
R116 says that with no trigger nothing is ever emitted, and the spec does not reconcile them (DESIGN CHOICE: assumption log 19).
It shows pc as it is (DESIGN CHOICE: assumption log 12). -/
def finalDump (wanted : Bool) (s : State) : Option RegisterDump :=
  if wanted then some (registerDump s s.pc) else none

/-- One move of the host. A load that does not fit faults, so there is no session after it (60_exceptions.md rule R124); a move
out of order is refused (decision D15). -/
def hostMove (cfg : Config) (session : Session) (move : HostMove) :
    Host.Outcome (Session × HostReply) Fault Refusal :=
  match session, move with
  | .off, .powerOn => .next (.poweredOn State.reset, .nothing)
  | .poweredOn s, .romLoad image =>
    match romLoad cfg image s with
    | .next t => .next (.running t, .loaded)
    | .fault x => .fault x
    | .refused x => .refused x
  | .running s, .step =>
    match Sys2Proof.Machine.step s with
    | .next t => .next (.running t, .stepped t.fault (stepDump cfg s))
    | .fault x => .fault x
    | .refused x => .refused x
  | .running s, .stop => .next (.halted s, .nothing)
  | .poweredOn s, .endSession dump => .next (.ended, .closed (finalDump dump s))
  | .running s, .endSession dump => .next (.ended, .closed (finalDump dump s))
  | .halted s, .endSession dump => .next (.ended, .closed (finalDump dump s))
  | _, _ => .refused .hostMoveOutOfOrder

/-- A sequence of moves: the session it leads to and the replies in order. -/
def hostMoves (cfg : Config) : Session → List HostMove → Host.Outcome (Session × List HostReply) Fault Refusal
  | session, [] => .next (session, [])
  | session, move :: rest =>
    match hostMove cfg session move with
    | .next (session', reply) =>
      match hostMoves cfg session' rest with
      | .next (final, replies) => .next (final, reply :: replies)
      | .fault x => .fault x
      | .refused x => .refused x
    | .fault x => .fault x
    | .refused x => .refused x

end Sys2Proof.Machine
end

