-- ==== Sys2Proof/Safety.lean ====
section
/-!
DEFINITION. Safety.lean: what counts as a run gone wrong, the error names, the reachable states, and the invariants claims
speak of.
-/

namespace Sys2Proof.Machine

/-- A run has gone wrong exactly when the latch is set (60_exceptions.md rule R141). -/
abbrev State.GoneWrong (s : State) : Prop := s.fault.isSome = true

/-- The closed enumeration of the source's error names (60_exceptions.md rules R126 and R127); no numbers. -/
inductive ErrorName where
  | unrecognizedOpcode
  | loadOutOfBounds
  | invalidRegisterIndex
  deriving DecidableEq, Repr

/-- The error a state's latch stands for. -/
def State.error (s : State) : Option ErrorName := s.fault.map (fun _ => .unrecognizedOpcode)

/-- The error an operation's outcome stands for, if it is one of the three. -/
def outcomeError {α : Type} : Host.Outcome α Fault Refusal → Option ErrorName
  | .next _ => none
  | .fault .loadOutOfBounds => some .loadOutOfBounds
  | .refused (.invalidRegisterIndex _) => some .invalidRegisterIndex
  | .refused _ => none

/-- The invariant of the machine: memory is canonical, and bits 3 to 0 of F are 0 (10_state.md rule R31). -/
abbrev State.Inv (s : State) : Prop := s.mem.wf ∧ s.r.f.extractLsb' 0 4 = 0

/-- What 10_state.md rule R37 (a) to (e) says of every reachable state. -/
abbrev State.PowerOnInv (s : State) : Prop :=
  s.r.f.extractLsb' 0 4 = 0 ∧ s.sp = 0 ∧ s.r.a = 0 ∧
    (s.r.d = 0 ∧ s.r.e = 0 ∧ s.r.h = 0 ∧ s.r.l = 0) ∧ s.flags.c = false

/-- A reachable state: power-on, one load, any number of steps (00_scope.md glossary). -/
inductive Reachable (cfg : Config) : State → Prop where
  | loaded (image : List Byte) (s : State) (h : romLoad cfg image State.reset = .next s) :
      Reachable cfg s
  | stepped (s t : State) (hs : Reachable cfg s) (h : step s = .next t) : Reachable cfg t

/-- The register cells an instruction writes: the last column of the table of 10_state.md rule R20, less pc. -/
def registerWrites : Instr → List Reg
  | .nop => []
  | .ldBCnn _ => [.b, .c]
  | .ldBCA => []
  | .incBC => [.b, .c]
  | .incB => [.b, .f]
  | .decB => [.b, .f]
  | .ldBN _ => [.b]
  | .rlca => [.a, .f]
  | .ldnnSP _ => []

/-- One instruction executed `k` times in a row. -/
def execTimes (i : Instr) : Nat → State → Host.Outcome State Fault Refusal
  | 0, s => .next s
  | k + 1, s =>
    match exec i s with
    | .next t => execTimes i k t
    | .fault x => .fault x
    | .refused x => .refused x

/-- The number of 1 bits of a byte. -/
def onesCount (v : Byte) : Nat := ((List.range 8).filter (fun k => v.getLsbD k)).length

/-- `s` with D, E, H and L replaced. -/
def State.withDEHL (s : State) (d e h l : Byte) : State :=
  { s with r := { s.r with d := d, e := e, h := h, l := l } }

end Sys2Proof.Machine
end

