-- ==== Sys2Proof/Certificates/Slice0/Obligations.lean ====
section
/-!
DEFINITION. Certificates/Slice0/Obligations.lean: the statements for the provers. Each docstring names the spec's rule or section.
A statement that rests on one of the spec's own decisions (92_eei_decisions.md) says which, with the assumption-log entry.
-/

open Sys2Proof Sys2Proof.Machine

/-! ## Encoding -/

/-- 30_encoding.md sections 1, 3 and 6: a byte sequence starts with instruction `i` exactly when it starts with the bytes of
`encode i`. No bit of an encoding is dropped, and no two encodings meet. -/
def Obligations.DecodeIsExactlyInverseToEncode : Prop :=
  ∀ (bytes : List Byte) (i : Instr) (rest : List Byte),
    decode bytes = .insn i rest ↔ bytes = encode i ++ rest

/-- Rule R66: the opcode table in full, byte, row, format and length; every other byte is unrecognized. -/
def Obligations.OpcodeByteSelectsItsTableRow : Prop :=
  ∀ op : Byte,
    (∀ o : Opcode, decodeOpcode op = .recognized o ↔
      (op, o, o.format, o.length) ∈
        [((0x00 : Byte), Opcode.nop, Format.op, 1), (0x01, .ldBCnn, .opNN, 3), (0x02, .ldBCA, .op, 1),
         (0x03, .incBC, .op, 1), (0x04, .incB, .op, 1), (0x05, .decB, .op, 1), (0x06, .ldBN, .opN, 2),
         (0x07, .rlca, .op, 1), (0x08, .ldnnSP, .opNN, 3)]) ∧
    (decodeOpcode op = .unrecognized op ↔ 0x09 ≤ op.toNat)

/-- Rule R65: the length is a function of the opcode byte alone; no later byte changes which row, or how long it is. -/
def Obligations.LengthIsAFunctionOfTheOpcodeByte : Prop :=
  ∀ (op : Byte) (tail : List Byte) (i : Instr) (rest : List Byte), decode (op :: tail) = .insn i rest →
    decodeOpcode op = .recognized i.opcode ∧ i.length = i.opcode.length ∧
      (op :: tail).length = i.length + rest.length

/-- 30_encoding.md sections 4 and 5: the 247 other bytes give the unrecognized verdict, whatever follows them; 0xCB is no
prefix. -/
def Obligations.UnrecognizedByteIsRejectedWhateverFollows : Prop :=
  ∀ (op : Byte) (rest : List Byte), 0x09 ≤ op.toNat → decode (op :: rest) = .unrecognized op

/-- 95_test_vectors.md section 3.14: the eleven recognized byte sequences there, written out from the encodings, decode to the
instructions they stand for. -/
def Obligations.WrittenOutWordsDecode : Prop :=
  decode [0x00] = .insn .nop [] ∧ decode [0x01, 0x34, 0x12] = .insn (.ldBCnn 0x1234) [] ∧
  decode [0x02] = .insn .ldBCA [] ∧ decode [0x03] = .insn .incBC [] ∧ decode [0x04] = .insn .incB [] ∧
  decode [0x05] = .insn .decB [] ∧ decode [0x06, 0x7F] = .insn (.ldBN 0x7F) [] ∧
  decode [0x07] = .insn .rlca [] ∧ decode [0x08, 0x00, 0xC1] = .insn (.ldnnSP 0xC100) [] ∧
  decode [0x01, 0x09, 0xFF] = .insn (.ldBCnn 0xFF09) [] ∧ decode [0x06, 0xCB] = .insn (.ldBN 0xCB) []

/-! ## Power-on -/

/-- 10_state.md section 9: everything is zero at power-on. Memory is zero by the spec's decision D4 (log 6), and the latch is
none by D9 (log 5). -/
def Obligations.PowerOnStateIsAllZero : Prop :=
  (∀ i : Reg, State.reset.getReg i = 0) ∧ State.reset.pc = 0 ∧ State.reset.sp = 0 ∧
    (∀ a : Word, State.reset.readByte a = 0) ∧ State.reset.fault = none

/-! ## Register file -/

/-- Rule R13: a direct write stores all eight bits in that cell and changes nothing else, F included; no instruction writes F
directly: F is as before or as a `set_flags` leaves it. -/
def Obligations.CellWriteChangesThatCellAlone : Prop :=
  (∀ (s : State) (i : Reg) (v : Byte),
    (s.setReg i v).getReg i = v ∧ (∀ j : Reg, j ≠ i → (s.setReg i v).getReg j = s.getReg j) ∧
    (s.setReg i v).pc = s.pc ∧ (s.setReg i v).sp = s.sp ∧ (s.setReg i v).mem = s.mem ∧
    (s.setReg i v).fault = s.fault) ∧
  (∀ (i : Instr) (s : State), ∃ t, exec i s = .next t ∧
    (t.getReg .f = s.getReg .f ∨ ∃ z n h c, t.getReg .f = (s.setFlags z n h c).getReg .f))

/-- Rules R15 and R16: reading a pair composes its two cells; writing one splits the value over them and changes no other cell.
Equal indices have no meaning (RegisterPortRefusesBadIndices says that they are refused). -/
def Obligations.PairReadComposesAndPairWriteSplits : Prop :=
  ∀ (r : RegFile) (lo hi : Reg), lo ≠ hi →
    r.getPair lo hi = r.get hi ++ r.get lo ∧
    (r.getPair lo hi).toNat = (r.get lo).toNat + 256 * (r.get hi).toNat ∧
    ∀ v : Word, (r.setPair lo hi v).get lo = v.extractLsb' 0 8 ∧ (r.setPair lo hi v).get hi = v.extractLsb' 8 8 ∧
      ∀ k : Reg, k ≠ lo → k ≠ hi → (r.setPair lo hi v).get k = r.get k

/-- Rule R18: the round trip of a pair, both ways. -/
def Obligations.PairRoundTripIsExact : Prop :=
  ∀ (r : RegFile) (lo hi : Reg), lo ≠ hi →
    (∀ v : Word, (r.setPair lo hi v).getPair lo hi = v) ∧ r.setPair lo hi (r.getPair lo hi) = r

/-- Rule R21: pairs are views of the cells: the two cells of each pair are those of its letters; a write to either shows in the
pair, a write to the pair shows in them, and a write to any other cell does not show. Which of the two is high is in
FirstLetterOfAPairIsItsHighByte. -/
def Obligations.PairIsAViewOfItsCells : Prop :=
  (∀ x : Reg, ((x = Pair.af.lo ∨ x = Pair.af.hi) ↔ (x = .a ∨ x = .f)) ∧
    ((x = Pair.bc.lo ∨ x = Pair.bc.hi) ↔ (x = .b ∨ x = .c)) ∧
    ((x = Pair.de.lo ∨ x = Pair.de.hi) ↔ (x = .d ∨ x = .e)) ∧
    ((x = Pair.hl.lo ∨ x = Pair.hl.hi) ↔ (x = .h ∨ x = .l))) ∧
  ∀ (s : State) (p : Pair) (v : Byte) (w : Word),
    (s.setReg p.hi v).getPair p = composeWord (s.getReg p.lo) v ∧
    (s.setReg p.lo v).getPair p = composeWord v (s.getReg p.hi) ∧
    (s.setPair p w).getReg p.lo = lowByte w ∧ (s.setPair p w).getReg p.hi = highByte w ∧
    (∀ k : Reg, k ≠ p.lo → k ≠ p.hi →
      (s.setReg k v).getPair p = s.getPair p ∧ (s.setPair p w).getReg k = s.getReg k)

/-- 10_state.md section 2, the spec's decision D2 (log 1): in each canonical pair the first-named register is the high-order byte
and the second-named one the low-order byte, for reading and for writing. -/
def Obligations.FirstLetterOfAPairIsItsHighByte : Prop :=
  (Pair.af.hi = .a ∧ Pair.af.lo = .f ∧ Pair.bc.hi = .b ∧ Pair.bc.lo = .c ∧
    Pair.de.hi = .d ∧ Pair.de.lo = .e ∧ Pair.hl.hi = .h ∧ Pair.hl.lo = .l) ∧
  ∀ (s : State) (v : Word),
    (s.getPair .af = s.r.a ++ s.r.f ∧ s.getPair .bc = s.r.b ++ s.r.c ∧
      s.getPair .de = s.r.d ++ s.r.e ∧ s.getPair .hl = s.r.h ++ s.r.l) ∧
    (s.setPair .af v).r = { s.r with a := v.extractLsb' 8 8, f := v.extractLsb' 0 8 } ∧
    (s.setPair .bc v).r = { s.r with b := v.extractLsb' 8 8, c := v.extractLsb' 0 8 } ∧
    (s.setPair .de v).r = { s.r with d := v.extractLsb' 8 8, e := v.extractLsb' 0 8 } ∧
    (s.setPair .hl v).r = { s.r with h := v.extractLsb' 8 8, l := v.extractLsb' 0 8 }

/-- 10_state.md section 1 and 60_exceptions.md section 1, with the spec's decisions D1 (log 8) and D18 (log 13): the raw
operations answer by index 0 to 7, in the order A F B C D E H L, and refuse other indices and equal pairs. Where both indices of
a pair are bad, also where they are equal, the refusal names the low one: that order of the checks is the model's choice
(DESIGN CHOICE, log 13). -/
def Obligations.RegisterPortRefusesBadIndices : Prop :=
  (∀ (x : Reg) (v : Byte) (s : State),
    portGet x.index s = .next (s.getReg x) ∧ portSet x.index v s = .next (s.setReg x v)) ∧
  [Reg.a, .f, .b, .c, .d, .e, .h, .l].map Reg.index = [0, 1, 2, 3, 4, 5, 6, 7] ∧
  (∀ (k : Nat) (v : Byte) (s : State), 8 ≤ k →
    portGet k s = .refused (.invalidRegisterIndex k) ∧ portSet k v s = .refused (.invalidRegisterIndex k)) ∧
  (∀ (x : Reg) (v : Word) (s : State),
    portGetPair x.index x.index s = .refused (.equalPairIndices x.index) ∧
    portSetPair x.index x.index v s = .refused (.equalPairIndices x.index)) ∧
  (∀ (x y : Reg) (v : Word) (s : State), x ≠ y →
    portGetPair x.index y.index s = .next (s.r.getPair x y) ∧
    portSetPair x.index y.index v s = .next { s with r := s.r.setPair x y v }) ∧
  (∀ (x : Reg) (k j : Nat) (v : Word) (s : State), 8 ≤ k →
    portGetPair k j s = .refused (.invalidRegisterIndex k) ∧
    portSetPair k j v s = .refused (.invalidRegisterIndex k) ∧
    portGetPair x.index k s = .refused (.invalidRegisterIndex k) ∧
    portSetPair x.index k v s = .refused (.invalidRegisterIndex k))

/-! ## Flags -/

/-- Rule R23: the bits of an encoded flags byte; bits 3 to 0 are zero, so its values are the sixteen multiples of 0x10. -/
def Obligations.FlagsEncodeToBitsSevenToFour : Prop :=
  ∀ z n h c : Bool,
    let v := encodeFlags { z := z, n := n, h := h, c := c }
    v.toNat = z.toNat * 128 + n.toNat * 64 + h.toNat * 32 + c.toNat * 16 ∧
    v.getLsbD 7 = z ∧ v.getLsbD 6 = n ∧ v.getLsbD 5 = h ∧ v.getLsbD 4 = c ∧ v.extractLsb' 0 4 = 0

/-- Rules R24 and R25: decode reads bits 7 to 4 and ignores the others; the codec laws. -/
def Obligations.FlagsCodecLaws : Prop :=
  (∀ x : Flags, decodeFlags (encodeFlags x) = x) ∧
  (∀ v : Byte, encodeFlags (decodeFlags v) = v &&& 0xF0) ∧
  (∀ v : Byte, decodeFlags v = decodeFlags (v &&& 0xF0) ∧
    decodeFlags v = { z := v.getLsbD 7, n := v.getLsbD 6, h := v.getLsbD 5, c := v.getLsbD 4 })

/-- Rule R27: `set_flags` sets the flags it is given, keeps the others, clears bits 3 to 0 of F also when it is given none, and
writes nothing but F. -/
def Obligations.SetFlagsOverridesAndKeepsTheRest : Prop :=
  ∀ (s : State) (z n h c : Option Bool),
    let t := s.setFlags z n h c
    t.flags = { z := z.getD s.flags.z, n := n.getD s.flags.n, h := h.getD s.flags.h, c := c.getD s.flags.c } ∧
    t.getReg .f = encodeFlags t.flags ∧ (t.getReg .f).extractLsb' 0 4 = 0 ∧
    (∀ j : Reg, j ≠ .f → t.getReg j = s.getReg j) ∧
    t.pc = s.pc ∧ t.sp = s.sp ∧ t.mem = s.mem ∧ t.fault = s.fault

/-! ## Memory -/

/-- Rule R42: a byte write is total, is what that address then reads as, and changes no other cell and no other state. -/
def Obligations.ByteWriteChangesThatAddressAlone : Prop :=
  ∀ (s : State) (a : Word) (v : Byte),
    (s.writeByte a v).readByte a = v ∧
    (∀ a' : Word, a' ≠ a → (s.writeByte a v).readByte a' = s.readByte a') ∧
    (s.writeByte a v).r = s.r ∧ (s.writeByte a v).pc = s.pc ∧ (s.writeByte a v).sp = s.sp ∧
    (s.writeByte a v).fault = s.fault

/-- Rule R43: reads change nothing, and writing the same byte twice is writing it once. -/
def Obligations.AccessesHaveNoSideEffects : Prop :=
  (∀ (m : Memory) (a : Word) (v : Byte), BusAccess.apply m (.read a v) = m) ∧
  (∀ (s : State) (a : Word) (v : Byte), (s.writeByte a v).writeByte a v = s.writeByte a v)

/-- 20_memory.md section 2, with the spec's decisions D6 (log 3) and D7 (log 2): a 16-bit write puts the low-order byte at the
address and the high-order byte at the next one, wrapping, changes no other byte, and reads back. -/
def Obligations.WordWriteIsTwoByteWritesLowFirst : Prop :=
  ∀ (s : State) (a : Word) (v : Word),
    let t := s.writeWord a v
    t.readByte a = v.extractLsb' 0 8 ∧ t.readByte (a + 1) = v.extractLsb' 8 8 ∧ t.readWord a = v ∧
    (∀ a' : Word, a' ≠ a → a' ≠ a + 1 → t.readByte a' = s.readByte a') ∧
    t.r = s.r ∧ t.pc = s.pc ∧ t.sp = s.sp ∧ t.fault = s.fault

/-- The model's own form of memory (20_memory.md section 1; log 6): two canonical memories that read alike at every address are
the same data. -/
def Obligations.CanonicalMemoriesThatReadAlikeAreEqual : Prop :=
  ∀ m m' : Memory, m.wf → m'.wf → (∀ a : Word, m.readByte a = m'.readByte a) → m = m'

/-- 20_memory.md section 3, with the spec's decision D11 (log 11): a load that fits places every byte and changes no other byte
and no register; one that does not fit is LoadOutOfBounds. -/
def Obligations.LoadPlacesTheBytesOrFails : Prop :=
  ∀ (start : Word) (bytes : List Byte) (s : State),
    (start.toNat + bytes.length ≤ 65536 → ∃ t, load start bytes s = .next t ∧
      (∀ (k : Nat) (h : k < bytes.length), t.readByte (start + BitVec.ofNat 16 k) = bytes[k]) ∧
      (∀ a : Word, a.toNat < start.toNat ∨ start.toNat + bytes.length ≤ a.toNat → t.readByte a = s.readByte a) ∧
      t.r = s.r ∧ t.pc = s.pc ∧ t.sp = s.sp ∧ t.fault = s.fault) ∧
    (65536 < start.toNat + bytes.length → load start bytes s = .fault .loadOutOfBounds)

/-! ## The step -/

/-- 40_step_cycle.md section 1, with the spec's decision D7 for the wrap of pc (log 2): when the core runs and the bytes at pc
(addresses wrapping) decode to `i`, the step is `exec` of `i`, which answers a next state with pc past the instruction. -/
def Obligations.StepRunsTheDecodedInstruction : Prop :=
  ∀ (s : State) (i : Instr) (rest : List Byte), s.fault = none →
    decode [s.readByte s.pc, s.readByte (s.pc + 1), s.readByte (s.pc + 2)] = .insn i rest →
    step s = exec i s ∧ ∃ t, exec i s = .next t ∧ t.pc = s.pc + BitVec.ofNat 16 i.length

/-- 60_exceptions.md section 1; the latch is the spec's decision D9 (log 5): an unrecognized opcode sets the latch to the byte
and pc, and changes nothing else. -/
def Obligations.UnrecognizedOpcodeSetsTheLatchOnly : Prop :=
  ∀ s : State, s.fault = none → 0x09 ≤ (s.readByte s.pc).toNat →
    step s = .next { s with fault := some { opcode := s.readByte s.pc, address := s.pc } }

/-- 60_exceptions.md section 1, with decision D9 (log 5): a running core stops in a step exactly on an unrecognized opcode; a
recognized one leaves the latch clear. -/
def Obligations.NothingElseSetsTheLatch : Prop :=
  ∀ s : State, s.fault = none → ∃ t, step s = .next t ∧
    (t.fault = none ↔ (s.readByte s.pc).toNat ≤ 0x08)

/-- 60_exceptions.md sections 4 and 5: the spec's decision D9 (log 5): a stopped core is as it was after any number of steps. -/
def Obligations.StoppedCoreStaysAsItIs : Prop :=
  ∀ (s : State) (k : Nat), s.fault.isSome = true →
    Host.Core.run Sys2Proof.core k s = Host.Outcome.next s

/-- 40_step_cycle.md section 2: the advancement adds the length to pc, wrapping by the spec's decision D7 (log 2), and changes
nothing else; no step changes sp; every step answers a next state. -/
def Obligations.AdvancementTouchesPcAloneAndNoStepTouchesSp : Prop :=
  (∀ (k : Nat) (s : State), (advancePc k s).pc = s.pc + BitVec.ofNat 16 k ∧ (advancePc k s).r = s.r ∧ (advancePc k s).sp = s.sp ∧
    (advancePc k s).mem = s.mem ∧ (advancePc k s).fault = s.fault) ∧
  (∀ s : State, ∃ t, step s = .next t ∧ t.sp = s.sp)

/-! ## The nine instructions

pc wraps at the top of memory by the spec's decision D7 (log 2) in each of them. -/

/-- 40_step_cycle.md section 4: NOP changes nothing but pc. -/
def Obligations.NopOnlyAdvancesPc : Prop :=
  ∀ s : State, exec .nop s = .next { s with pc := s.pc + 1 }

/-- 41_loads_stores.md section 2, LD BC,nn: B takes the high-order byte by decision D2 (log 1); F and all else unchanged. -/
def Obligations.LdBCnnLoadsBothCells : Prop :=
  ∀ (nn : Word) (s : State), exec (.ldBCnn nn) s =
    .next { s with r := { s.r with b := nn.extractLsb' 8 8, c := nn.extractLsb' 0 8 }, pc := s.pc + 3 }

/-- 41_loads_stores.md section 2, LD (BC),A: the byte at BC becomes A and every other byte is as before, also when BC is in the
instruction itself; registers, sp and latch unchanged. B is the high-order byte of the address by decision D2 (log 1). -/
def Obligations.LdBCAStoresTheAccumulatorAtBC : Prop :=
  ∀ s : State, ∃ t, exec .ldBCA s = .next t ∧
    addressBC s = s.r.b ++ s.r.c ∧ t.readByte (addressBC s) = s.r.a ∧
    (∀ a : Word, a ≠ addressBC s → t.readByte a = s.readByte a) ∧
    t.r = s.r ∧ t.pc = s.pc + 1 ∧ t.sp = s.sp ∧ t.fault = s.fault

/-- 42_inc_dec.md section 2, INC BC: BC plus 1 modulo 65536 with the carry into B (decision D2, log 1), F keeps all eight bits,
and nothing else but pc changes. -/
def Obligations.IncBCAddsOneAndWritesNoFlag : Prop :=
  ∀ s : State, ∃ t, exec .incBC s = .next t ∧
    256 * t.r.b.toNat + t.r.c.toNat = (256 * s.r.b.toNat + s.r.c.toNat + 1) % 65536 ∧
    t.r.f = s.r.f ∧ (∀ x : Reg, x ≠ .b → x ≠ .c → t.getReg x = s.getReg x) ∧
    t.pc = s.pc + 1 ∧ t.sp = s.sp ∧ t.mem = s.mem ∧ t.fault = s.fault

/-- 42_inc_dec.md section 2, INC B: B plus 1 modulo 256; Z, N, H as the rule gives them, C kept, bits 3 to 0 of F cleared; BC
moves by 0x0100 (decision D2, log 1); nothing else but pc changes. -/
def Obligations.IncBCountsUpAndSetsFlags : Prop :=
  ∀ s : State, ∃ t, exec .incB s = .next t ∧
    t.r.b = s.r.b + 1 ∧
    t.flags = { z := decide (s.r.b = 0xFF), n := false, h := decide (s.r.b.toNat % 16 = 15), c := s.flags.c } ∧
    t.r.f.extractLsb' 0 4 = 0 ∧ t.getPair .bc = s.getPair .bc + 0x0100 ∧
    (∀ x : Reg, x ≠ .b → x ≠ .f → t.getReg x = s.getReg x) ∧
    t.pc = s.pc + 1 ∧ t.sp = s.sp ∧ t.mem = s.mem ∧ t.fault = s.fault

/-- Rule R104: DEC B: opcode 0x05, length 1; B minus 1 modulo 256; Z iff the old value was 0x01, N set, H iff the old low nibble
was 0x0, C kept, bits 3 to 0 of F cleared; no other register, sp, memory or the latch changes. -/
def Obligations.DecBCountsDownAndSetsFlags : Prop :=
  encode .decB = [0x05] ∧ Instr.length .decB = 1 ∧
  ∀ s : State, ∃ t, exec .decB s = .next t ∧
    t.r.b = s.r.b - 1 ∧
    t.flags = { z := decide (s.r.b = 0x01), n := true, h := decide (s.r.b.toNat % 16 = 0), c := s.flags.c } ∧
    t.r.f.extractLsb' 0 4 = 0 ∧
    (∀ x : Reg, x ≠ .b → x ≠ .f → t.getReg x = s.getReg x) ∧
    t.sp = s.sp ∧ t.mem = s.mem ∧ t.fault = s.fault

/-- 41_loads_stores.md section 2, LD B,n: B takes the immediate; C, F and all else but pc unchanged. -/
def Obligations.LdBNLoadsTheImmediate : Prop :=
  ∀ (n : Byte) (s : State), exec (.ldBN n) s = .next { s with r := { s.r with b := n }, pc := s.pc + 2 }

/-- 43_rotate.md section 2, RLCA: every bit of A moves one place left and bit 7 enters bit 0. The flags are the spec's decision
D8 (log 4): F becomes 0x10 if the old bit 7 was 1 and 0x00 otherwise. Nothing else but pc changes. -/
def Obligations.RlcaRotatesTheAccumulator : Prop :=
  ∀ s : State, ∃ t, exec .rlca s = .next t ∧
    (∀ k : Nat, k < 8 → t.r.a.getLsbD k = s.r.a.getLsbD ((k + 7) % 8)) ∧
    t.r.a.toNat = (2 * s.r.a.toNat) % 256 + s.r.a.toNat / 128 ∧
    t.r.f = (if s.r.a.getLsbD 7 then 0x10 else 0x00) ∧
    (∀ x : Reg, x ≠ .a → x ≠ .f → t.getReg x = s.getReg x) ∧
    t.pc = s.pc + 1 ∧ t.sp = s.sp ∧ t.mem = s.mem ∧ t.fault = s.fault

/-- 41_loads_stores.md section 2, LD (nn),SP: the low-order byte of sp at nn and the high-order byte at nn + 1 modulo 65536, by
the spec's decisions D6 (log 3) and D7 (log 2); every other byte, all registers and sp unchanged. -/
def Obligations.LdnnSPStoresTheStackPointer : Prop :=
  ∀ (nn : Word) (s : State), ∃ t, exec (.ldnnSP nn) s = .next t ∧
    t.readByte (addressAbsolute nn).1 = s.sp.extractLsb' 0 8 ∧
    t.readByte (addressAbsolute nn).2 = s.sp.extractLsb' 8 8 ∧ addressAbsolute nn = (nn, nn + 1) ∧
    (∀ a : Word, a ≠ (addressAbsolute nn).1 → a ≠ (addressAbsolute nn).2 → t.readByte a = s.readByte a) ∧
    t.r = s.r ∧ t.pc = s.pc + 3 ∧ t.sp = s.sp ∧ t.fault = s.fault

/-- Rule R101: half-carry comes from the low nibble of the operand before the operation: 0xF for INC B, 0x0 for DEC B. -/
def Obligations.HalfCarryComesFromTheOldLowNibble : Prop :=
  ∀ s : State,
    (∃ t, exec .incB s = .next t ∧ (t.flags.h = true ↔ s.r.b.extractLsb' 0 4 = 0xF)) ∧
    (∃ t, exec .decB s = .next t ∧ (t.flags.h = true ↔ s.r.b.extractLsb' 0 4 = 0x0))

/-- 42_inc_dec.md section 3: INC B and then DEC B restores B but not F. -/
def Obligations.IncThenDecRestoresBNotF : Prop :=
  ∀ s : State, ∃ t u, exec .incB s = .next t ∧ exec .decB t = .next u ∧
    u.r.b = s.r.b ∧
    u.flags = { z := decide (s.r.b = 0), n := true, h := decide (s.r.b.toNat % 16 = 15), c := s.flags.c }

/-- 43_rotate.md section 2, laws of the rotation; the carry clause is the spec's decision D8 (log 4): after k rotations A has
turned k places, with as many 1 bits, C is the original bit 8 - k; eight restore A. -/
def Obligations.RepeatedRotationLaws : Prop :=
  ∀ (s : State) (k : Nat), k ≤ 8 → ∃ t, execTimes .rlca k s = .next t ∧
    (∀ j : Nat, j < 8 → t.r.a.getLsbD ((j + k) % 8) = s.r.a.getLsbD j) ∧
    onesCount t.r.a = onesCount s.r.a ∧
    (1 ≤ k → t.flags.c = s.r.a.getLsbD (8 - k)) ∧
    (k = 8 → t.r.a = s.r.a)

/-! ## What instructions do not touch -/

/-- 10_state.md section 2, the table of register accesses; pc wraps by decision D7 (log 2): every instruction completes, writes no
cell outside its entry, never sp and never the latch, and advances pc by its length. -/
def Obligations.EveryInstructionStaysInItsWriteSet : Prop :=
  ∀ (i : Instr) (s : State), ∃ t, exec i s = .next t ∧
    (∀ x : Reg, x ∉ registerWrites i → t.getReg x = s.getReg x) ∧
    t.sp = s.sp ∧ t.fault = s.fault ∧ t.pc = s.pc + BitVec.ofNat 16 i.length

/-- 20_memory.md section 6: of the instructions, only LD (BC),A and LD (nn),SP write memory. -/
def Obligations.OnlyTheTwoStoresWriteMemory : Prop :=
  ∀ (i : Instr) (s : State), i ≠ .ldBCA → (∀ nn, i ≠ .ldnnSP nn) → ∃ t, exec i s = .next t ∧ t.mem = s.mem

/-- 10_state.md section 5, with the spec's decision D3 (log 7): in any state, reachable or not, INC B, DEC B and RLCA clear bits 3
to 0 of F and every other instruction keeps all eight bits of F. -/
def Obligations.StrayLowBitsOfFAreClearedOrKept : Prop :=
  ∀ (i : Instr) (s : State), ∃ t, exec i s = .next t ∧
    (if i = .incB ∨ i = .decB ∨ i = .rlca then t.r.f.extractLsb' 0 4 = 0 else t.r.f = s.r.f)

/-- 10_state.md section 2: no instruction reads or writes D, E, H or L: replacing them before a step replaces them after it and
changes nothing else. -/
def Obligations.RegistersDEHLAreInert : Prop :=
  ∀ (s : State) (d e h l : Byte), ∃ t, step s = .next t ∧
    (t.r.d = s.r.d ∧ t.r.e = s.r.e ∧ t.r.h = s.r.h ∧ t.r.l = s.r.l) ∧
    step (s.withDEHL d e h l) = .next (t.withDEHL d e h l)

/-- 10_state.md section 5: no instruction reads a flag to decide what to do: two states that differ in F alone step to states
that differ in F at most. -/
def Obligations.FlagsNeverSteerExecution : Prop :=
  ∀ (s : State) (v : Byte), ∃ t u, step s = .next t ∧ step (s.setReg .f v) = .next u ∧
    (∀ x : Reg, x ≠ .f → u.getReg x = t.getReg x) ∧
    u.pc = t.pc ∧ u.sp = t.sp ∧ u.mem = t.mem ∧ u.fault = t.fault

/-! ## Invariants -/

/-- 10_state.md section 5 and the model's canonical form of memory (log 6): at power-on memory is canonical and bits 3 to 0 of F
are 0. -/
def Obligations.PowerOnMeetsTheMachineInvariant : Prop := State.reset.Inv

/-- 10_state.md section 5 (decision D3, log 7) and the model's canonical form of memory (log 6): every step answers a next state
and keeps memory canonical and bits 3 to 0 of F zero. -/
def Obligations.EveryStepKeepsTheMachineInvariant : Prop :=
  ∀ s : State, s.Inv → ∃ t, step s = .next t ∧ t.Inv

/-- 10_state.md section 9: the facts of the reachable states hold at power-on. -/
def Obligations.PowerOnMeetsTheReachableFacts : Prop := State.reset.PowerOnInv

/-- 10_state.md section 9, with decision D8 for the carry (log 4): from any state where A, D, E, H, L, sp, the carry and bits 3 to
0 of F are zero, a step leads to such a state, whatever memory, B, C and the other flags hold. -/
def Obligations.EveryStepKeepsTheReachableFacts : Prop :=
  ∀ s : State, s.PowerOnInv → ∃ t, step s = .next t ∧ t.PowerOnInv

/-- 10_state.md section 9, over every LOAD_BASE and image: every reachable state meets both invariants. The canonical form of
memory in State.Inv is the model's choice (DESIGN CHOICE, log 6); the storage of F is the spec's decision D3 (log 7), and the carry
rests on D8 (log 4). -/
def Obligations.ReachableStatesMeetBothInvariants : Prop :=
  ∀ (cfg : Config) (s : State), Reachable cfg s → s.Inv ∧ s.PowerOnInv

/-! ## Bus, self-modification, long runs -/

/-- 20_memory.md sections 4 and 6 and 50_interfaces.md section 4; the order, and the one read of an unrecognized opcode, are the
spec's decisions D12 and D21 (log 14), the wrap D7 (log 2), the bytes of the SP store D6 (log 3), the address BC D2 (log 1). A
running step reads pc, and pc + 1 and pc + 2 as far as its instruction goes, pc alone if the opcode is unrecognized; then come
the data writes of the two stores; a stopped core makes no access. Every read is answered from the memory before the step, no
address is read twice, there are at most five accesses, and replaying them over the old memory gives the new memory. -/
def Obligations.BusHistoryReplaysToTheNewMemory : Prop :=
  ∀ s : State, ∃ t, step s = .next t ∧
    (stepAccesses s).foldl BusAccess.apply s.mem = t.mem ∧
    (stepAccesses s).length ≤ 5 ∧ (s.fault = none → 1 ≤ (stepAccesses s).length) ∧
    (s.fault.isSome = true → stepAccesses s = []) ∧
    (∀ a v, BusAccess.read a v ∈ stepAccesses s → v = s.readByte a) ∧
    (fetchAddresses s).Nodup ∧
    fetchAddresses s =
      (if s.readByte s.pc = 0x01 ∨ s.readByte s.pc = 0x08 then [s.pc, s.pc + 1, s.pc + 2]
       else if s.readByte s.pc = 0x06 then [s.pc, s.pc + 1] else [s.pc]) ∧
    (s.fault = none → stepAccesses s =
      (fetchAddresses s).map (fun a => .read a (s.readByte a)) ++
        (if s.readByte s.pc = 0x02 then [.write (addressBC s) s.r.a]
         else if s.readByte s.pc = 0x08 then
           [.write (immediate16 s) (s.sp.extractLsb' 0 8), .write (immediate16 s + 1) (s.sp.extractLsb' 8 8)]
         else []))

/-- 20_memory.md section 6 and 40_step_cycle.md section 1 (pc + 1 wraps by decision D7, log 2): a running LD (BC),A with BC on the
next opcode makes the next step fetch the stored byte; with BC on its own opcode it still completes as LD (BC),A. -/
def Obligations.StoreAheadOfPcIsWhatTheNextStepFetches : Prop :=
  ∀ s : State, s.fault = none → s.readByte s.pc = 0x02 →
    ∃ t, step s = .next t ∧ t.pc = s.pc + 1 ∧ t.fault = none ∧
      (addressBC s = s.pc + 1 → t.readByte t.pc = s.r.a) ∧
      (addressBC s = s.pc → t.readByte s.pc = s.r.a ∧ t.r = s.r)

/-- 40_step_cycle.md section 2 and 70_reset_and_hazards.md section 2, wrap by decision D7 (log 2): over memory that is all zero a
running core executes NOPs: after k steps pc has moved k places modulo 65536 and nothing else has changed. -/
def Obligations.ZeroMemoryRunsAsNops : Prop :=
  ∀ (s : State) (k : Nat), s.fault = none → (∀ a : Word, s.readByte a = 0) →
    Host.Core.run Sys2Proof.core k s =
      Host.Outcome.next ({ s with pc := s.pc + BitVec.ofNat 16 k } : State)

/-! ## The host -/

/-- 50_interfaces.md section 2 and 70_reset_and_hazards.md sections 1 and 2 (memory zero by decision D4, log 6; LOAD_BASE by D5,
log 9): power-on and a load that fits lead to a running core at pc 0 with the image in place, zero elsewhere, zero registers
and a clear latch. -/
def Obligations.BootStartsAtAddressZero : Prop :=
  ∀ (cfg : Config) (image : List Byte), cfg.loadBase.toNat + image.length ≤ 65536 →
    ∃ s replies, hostMoves cfg .off [.powerOn, .romLoad image] = .next (.running s, replies) ∧
      s.pc = 0 ∧ s.sp = 0 ∧ s.fault = none ∧ (∀ x : Reg, s.getReg x = 0) ∧
      (∀ (k : Nat) (h : k < image.length), s.readByte (cfg.loadBase + BitVec.ofNat 16 k) = image[k]) ∧
      (∀ a : Word, a.toNat < cfg.loadBase.toNat ∨ cfg.loadBase.toNat + image.length ≤ a.toNat → s.readByte a = 0)

/-- 60_exceptions.md section 1, decision D11 (log 11): an image that does not fit has no run: the load move faults. -/
def Obligations.OversizedImageHasNoRun : Prop :=
  ∀ (cfg : Config) (s : State) (image : List Byte) (moves : List HostMove),
    65536 < cfg.loadBase.toNat + image.length →
    hostMoves cfg (.poweredOn s) (.romLoad image :: moves) = .fault .loadOutOfBounds

/-- 50_interfaces.md section 2, the spec's decision D15 (log 12): while the core runs, a move that leaves it running is a step
and changes the state as the step does; a second load or power-on is refused; a step move always completes, and its reply's
report is the latch after it (DESIGN CHOICE, log 16). A stop move completes and changes nothing of the state; after it every move
but the end of the session is refused (DESIGN CHOICE, log 12). The end of the session completes after power-on, while running and
after a stop, and keeps no state; it gives the register dump when the host asks for it, whatever the trigger is (DESIGN CHOICE,
log 19), showing pc as it is (DESIGN CHOICE, log 12); after it every move is refused. -/
def Obligations.OnlyStepsChangeARunningCore : Prop :=
  ∀ (cfg : Config) (s : State),
    (∀ (move : HostMove) (t : State) (reply : HostReply), hostMove cfg (.running s) move = .next (.running t, reply) →
      move = .step ∧ step s = .next t) ∧
    (∀ image, hostMove cfg (.running s) (.romLoad image) = .refused .hostMoveOutOfOrder) ∧
    hostMove cfg (.running s) .powerOn = .refused .hostMoveOutOfOrder ∧
    (∃ t, step s = .next t ∧
      hostMove cfg (.running s) .step = .next (.running t, .stepped t.fault (stepDump cfg s))) ∧
    hostMove cfg (.running s) .stop = .next (.halted s, .nothing) ∧
    (∀ move : HostMove, (∀ dump, move ≠ .endSession dump) →
      hostMove cfg (.halted s) move = .refused .hostMoveOutOfOrder) ∧
    (∀ session : Session, session = .poweredOn s ∨ session = .running s ∨ session = .halted s →
      hostMove cfg session (.endSession false) = .next (.ended, .closed none) ∧
      hostMove cfg session (.endSession true) = .next (.ended, .closed (some (registerDump s s.pc)))) ∧
    (∀ move : HostMove, hostMove cfg .ended move = .refused .hostMoveOutOfOrder)

/-- Rule R117: the diagnostic hook is passive: with a trigger and without one, the same moves lead to the same session, and so to
the same state. -/
def Obligations.DiagnosticHookIsPassive : Prop :=
  ∀ (base : Word) (trigger : Byte) (session final : Session) (moves : List HostMove),
    (∃ replies, hostMoves { loadBase := base, diagTrigger := some trigger } session moves = .next (final, replies)) ↔
    (∃ replies, hostMoves { loadBase := base, diagTrigger := none } session moves = .next (final, replies))

/-- 50_interfaces.md section 3, decision D16; the dump as a record is the model's choice (log 10): a step emits a dump exactly when
the core runs and the opcode is recognized and is the trigger; it shows the registers after the step, the opcode, and pc from
before or after the advancement. -/
def Obligations.DumpFollowsTheTriggerOpcode : Prop :=
  ∀ (cfg : Config) (s : State),
    ((stepDump cfg s).isSome = true ↔
      s.fault = none ∧ (s.readByte s.pc).toNat ≤ 0x08 ∧ cfg.diagTrigger = some (s.readByte s.pc)) ∧
    (∀ d, stepDump cfg s = some d → ∃ t, step s = .next t ∧ d.opcode = s.readByte s.pc ∧
      d.registers.af = t.getPair .af ∧ d.registers.bc = t.getPair .bc ∧ d.registers.de = t.getPair .de ∧
      d.registers.hl = t.getPair .hl ∧ d.registers.flags = t.flags ∧ d.registers.sp = t.sp ∧
      (d.registers.pc = s.pc ∨ d.registers.pc = t.pc))
end

