-- ==== Sys2Proof/Laws/Decode.lean ====
section
/-!
SUPPORT. Laws/Decode.lean: what the opcode decoder's two verdicts say, and what the fetch phase depends on.
-/

namespace Sys2Proof

/-- A recognized byte is the byte of its opcode. -/
theorem decodeOpcode_recognized {op : Byte} {o : Opcode} (h : decodeOpcode op = .recognized o) : op = o.byte := by
  unfold decodeOpcode at h
  split at h
  · rename_i q hq
    have hb := List.find?_some hq
    simp only [beq_iff_eq, Verdict.recognized.injEq] at hb h
    rw [← h, hb]
  · exact nomatch h

/-- The unrecognized verdict carries the byte itself. -/
theorem decodeOpcode_unrecognized {op v : Byte} (h : decodeOpcode op = .unrecognized v) : v = op := by
  unfold decodeOpcode at h
  split at h
  · exact nomatch h
  · exact (Verdict.unrecognized.inj h).symm

/-- The byte of every opcode is recognized as that opcode. -/
@[simp] theorem decodeOpcode_byte (o : Opcode) : decodeOpcode o.byte = .recognized o := by
  cases o <;> decide

@[simp] theorem Opcode.instr_opcode (o : Opcode) (n : Byte) (nn : Word) : (o.instr n nn).opcode = o := by
  cases o <;> rfl

namespace Machine

/-- The fetch phase depends on memory and pc alone (40_step_cycle.md rule R84). -/
theorem fetch_congr {s t : State} (hm : s.mem = t.mem) (hp : s.pc = t.pc) : fetch s = fetch t := by
  simp only [fetch, State.readByte, immediate8, immediate16, State.readWord, hm, hp]

end Machine

end Sys2Proof
end

