-- ==== Sys2Proof/Laws/State.lean ====
section
/-!
SUPPORT. Laws/State.lean: one lemma per field of State for each update of it, true by rfl, so that no proof unfolds a record
update.
-/

namespace Sys2Proof.Machine

variable (s : State) (i : Reg) (p : Pair) (v : Byte) (w : Word) (a : Word) (z n h c : Option Bool)

@[simp] theorem State.setReg_r : (s.setReg i v).r = s.r.set i v := rfl
@[simp] theorem State.setReg_pc : (s.setReg i v).pc = s.pc := rfl
@[simp] theorem State.setReg_sp : (s.setReg i v).sp = s.sp := rfl
@[simp] theorem State.setReg_mem : (s.setReg i v).mem = s.mem := rfl
@[simp] theorem State.setReg_fault : (s.setReg i v).fault = s.fault := rfl

@[simp] theorem State.setPair_r : (s.setPair p w).r = s.r.setPair p.lo p.hi w := rfl
@[simp] theorem State.setPair_pc : (s.setPair p w).pc = s.pc := rfl
@[simp] theorem State.setPair_sp : (s.setPair p w).sp = s.sp := rfl
@[simp] theorem State.setPair_mem : (s.setPair p w).mem = s.mem := rfl
@[simp] theorem State.setPair_fault : (s.setPair p w).fault = s.fault := rfl

@[simp] theorem State.writeByte_r : (s.writeByte a v).r = s.r := rfl
@[simp] theorem State.writeByte_pc : (s.writeByte a v).pc = s.pc := rfl
@[simp] theorem State.writeByte_sp : (s.writeByte a v).sp = s.sp := rfl
@[simp] theorem State.writeByte_mem : (s.writeByte a v).mem = s.mem.writeByte a v := rfl
@[simp] theorem State.writeByte_fault : (s.writeByte a v).fault = s.fault := rfl

@[simp] theorem State.writeWord_r : (s.writeWord a w).r = s.r := rfl
@[simp] theorem State.writeWord_pc : (s.writeWord a w).pc = s.pc := rfl
@[simp] theorem State.writeWord_sp : (s.writeWord a w).sp = s.sp := rfl
@[simp] theorem State.writeWord_mem : (s.writeWord a w).mem =
    (s.mem.writeByte a (lowByte w)).writeByte (a + 1) (highByte w) := rfl
@[simp] theorem State.writeWord_fault : (s.writeWord a w).fault = s.fault := rfl

@[simp] theorem State.setFlags_pc : (s.setFlags z n h c).pc = s.pc := rfl
@[simp] theorem State.setFlags_sp : (s.setFlags z n h c).sp = s.sp := rfl
@[simp] theorem State.setFlags_mem : (s.setFlags z n h c).mem = s.mem := rfl
@[simp] theorem State.setFlags_fault : (s.setFlags z n h c).fault = s.fault := rfl
theorem State.setFlags_r : (s.setFlags z n h c).r =
    s.r.set .f (encodeFlags
      ⟨z.getD s.flags.z, n.getD s.flags.n, h.getD s.flags.h, c.getD s.flags.c⟩) := rfl

@[simp] theorem advancePc_r (k : Nat) : (advancePc k s).r = s.r := rfl
@[simp] theorem advancePc_pc (k : Nat) : (advancePc k s).pc = s.pc + BitVec.ofNat 16 k := rfl
@[simp] theorem advancePc_sp (k : Nat) : (advancePc k s).sp = s.sp := rfl
@[simp] theorem advancePc_mem (k : Nat) : (advancePc k s).mem = s.mem := rfl
@[simp] theorem advancePc_fault (k : Nat) : (advancePc k s).fault = s.fault := rfl

@[simp] theorem takeUnrecognizedOpcode_r : (takeUnrecognizedOpcode v s).r = s.r := rfl
@[simp] theorem takeUnrecognizedOpcode_pc : (takeUnrecognizedOpcode v s).pc = s.pc := rfl
@[simp] theorem takeUnrecognizedOpcode_sp : (takeUnrecognizedOpcode v s).sp = s.sp := rfl
@[simp] theorem takeUnrecognizedOpcode_mem : (takeUnrecognizedOpcode v s).mem = s.mem := rfl
@[simp] theorem takeUnrecognizedOpcode_fault :
    (takeUnrecognizedOpcode v s).fault = some { opcode := v, address := s.pc } := rfl

end Sys2Proof.Machine
end

