-- ==== Sys2Proof/Laws/Memory.lean ====
section
/-!
SUPPORT. Laws/Memory.lean: a read after a write, and that every memory operation keeps the canonical form. The read laws need
no canonical form: they hold of any list.
-/

namespace Sys2Proof.Machine

variable {m : Memory} {k j : Nat} {v : Byte}

theorem Memory.lookup_erase_same : (m.erase k).lookup k = unlistedByte := by
  induction m with
  | nil => rfl
  | cons c rest ih =>
    obtain ⟨k', v'⟩ := c
    by_cases h : k' = k <;> simp_all [Memory.erase, Memory.lookup]

theorem Memory.lookup_erase_ne (h : j ≠ k) : (m.erase k).lookup j = m.lookup j := by
  induction m with
  | nil => rfl
  | cons c rest ih =>
    obtain ⟨k', v'⟩ := c
    by_cases h' : k' = k
    · have : k ≠ j := Ne.symm h
      simp_all [Memory.erase, Memory.lookup]
    · simp_all [Memory.erase, Memory.lookup]

theorem Memory.lookup_insertCell_ne (h : j ≠ k) : (m.insertCell k v).lookup j = m.lookup j := by
  have hkj : k ≠ j := Ne.symm h
  induction m with
  | nil => simp [Memory.insertCell, Memory.lookup, hkj]
  | cons c rest ih =>
    obtain ⟨k', v'⟩ := c
    unfold Memory.insertCell
    split <;> simp [Memory.lookup, hkj, ih]

theorem Memory.lookup_insertCell_same (h : ∀ c ∈ m, c.1 ≠ k) : (m.insertCell k v).lookup k = v := by
  induction m with
  | nil => simp [Memory.insertCell, Memory.lookup]
  | cons c rest ih =>
    obtain ⟨k', v'⟩ := c
    have h' : k' ≠ k := h (k', v') (by simp)
    unfold Memory.insertCell
    split
    · simp [Memory.lookup]
    · simp [Memory.lookup, h', ih (fun c hc => h c (List.mem_cons_of_mem _ hc))]

theorem Memory.mem_erase {c : Host.Cell} : c ∈ m.erase k ↔ c ∈ m ∧ c.1 ≠ k := by
  simp [Memory.erase]

@[simp] theorem Memory.lookup_store_same : (m.store k v).lookup k = v := by
  unfold Memory.store
  split
  · rename_i h; rw [Memory.lookup_erase_same, h]
  · exact Memory.lookup_insertCell_same fun c hc => (Memory.mem_erase.mp hc).2

theorem Memory.lookup_store_ne (h : j ≠ k) : (m.store k v).lookup j = m.lookup j := by
  unfold Memory.store
  split
  · exact Memory.lookup_erase_ne h
  · rw [Memory.lookup_insertCell_ne h, Memory.lookup_erase_ne h]

theorem Memory.mem_insertCell {c : Host.Cell} : c ∈ m.insertCell k v ↔ c = (k, v) ∨ c ∈ m := by
  induction m with
  | nil => simp [Memory.insertCell]
  | cons d rest ih =>
    obtain ⟨k', v'⟩ := d
    unfold Memory.insertCell
    split
    · simp
    · simp only [List.mem_cons, ih]; tauto

theorem Memory.pairwise_insertCell (hm : m.Pairwise (fun x y => x.1 < y.1)) (hk : ∀ c ∈ m, c.1 ≠ k) :
    (m.insertCell k v).Pairwise (fun x y => x.1 < y.1) := by
  induction m with
  | nil => simp [Memory.insertCell]
  | cons d rest ih =>
    obtain ⟨k', v'⟩ := d
    rw [List.pairwise_cons] at hm
    have h' : k' ≠ k := hk (k', v') (by simp)
    unfold Memory.insertCell
    split
    · rename_i hlt
      rw [List.pairwise_cons, List.pairwise_cons]
      refine ⟨fun c hc => ?_, hm⟩
      rcases List.mem_cons.mp hc with rfl | hc
      · exact hlt
      · exact Nat.lt_trans hlt (hm.1 c hc)
    · rw [List.pairwise_cons]
      refine ⟨fun c hc => ?_, ih hm.2 (fun c hc => hk c (List.mem_cons_of_mem _ hc))⟩
      rcases Memory.mem_insertCell.mp hc with rfl | hc
      · show k' < k; omega
      · exact hm.1 c hc

/-- A store inside the address space keeps the canonical form. -/
theorem Memory.store_wf (hm : m.wf) (hk : k < 65536) : (m.store k v).wf := by
  have he : (m.erase k).wf :=
    ⟨List.Pairwise.filter _ hm.1, fun c hc => hm.2 c (Memory.mem_erase.mp hc).1⟩
  unfold Memory.store
  split
  · exact he
  · rename_i hv
    refine ⟨Memory.pairwise_insertCell he.1 fun c hc => (Memory.mem_erase.mp hc).2, fun c hc => ?_⟩
    rcases Memory.mem_insertCell.mp hc with rfl | hc
    · exact ⟨hk, hv⟩
    · exact he.2 c hc

/-- `write_byte` keeps the canonical form. -/
theorem Memory.writeByte_wf (hm : m.wf) (a : Word) : (m.writeByte a v).wf :=
  Memory.store_wf hm a.isLt

@[simp] theorem Memory.readByte_writeByte_same (a : Word) : (m.writeByte a v).readByte a = v :=
  Memory.lookup_store_same

theorem Memory.readByte_writeByte_ne {a b : Word} (h : b ≠ a) :
    (m.writeByte a v).readByte b = m.readByte b :=
  Memory.lookup_store_ne fun he => h (BitVec.eq_of_toNat_eq he)

/-- Bytes placed inside the address space keep the canonical form. -/
theorem Memory.storeAll_wf {bytes : List Byte} (hm : m.wf) (hk : k + bytes.length ≤ 65536) :
    (m.storeAll k bytes).wf := by
  induction bytes generalizing m k with
  | nil => exact hm
  | cons b rest ih =>
    simp only [List.length_cons] at hk
    exact ih (Memory.store_wf hm (by omega)) (by omega)

/-- Placing bytes from `k` on leaves the keys below `k` and from `k + length` on alone. -/
theorem Memory.lookup_storeAll_outside {bytes : List Byte} (h : j < k ∨ k + bytes.length ≤ j) :
    (m.storeAll k bytes).lookup j = m.lookup j := by
  induction bytes generalizing m k with
  | nil => rfl
  | cons b rest ih =>
    simp only [List.length_cons] at h
    rw [Memory.storeAll, ih (by omega), Memory.lookup_store_ne (by omega)]

/-- The `i`th byte placed from `k` on is read at `k + i`. -/
theorem Memory.lookup_storeAll_inside {bytes : List Byte} {i : Nat} (h : i < bytes.length) :
    (m.storeAll k bytes).lookup (k + i) = bytes[i] := by
  induction bytes generalizing m k i with
  | nil => simp at h
  | cons b rest ih =>
    cases i with
    | zero =>
      rw [Memory.storeAll, Memory.lookup_storeAll_outside (by omega)]
      simp
    | succ i =>
      have hi : i < rest.length := by simpa using h
      have hk : k + (i + 1) = (k + 1) + i := by omega
      rw [Memory.storeAll, hk, ih hi]
      rfl

/-- `load` answers a next state exactly when the bytes fit, and then only memory has changed. -/
theorem load_next {start : Word} {bytes : List Byte} {s t : State} (h : load start bytes s = .next t) :
    start.toNat + bytes.length ≤ 65536 ∧ t = { s with mem := s.mem.storeAll start.toNat bytes } := by
  unfold load at h
  split at h
  · rename_i hf
    exact ⟨of_decide_eq_true hf, (Host.Outcome.next.inj h).symm⟩
  · exact nomatch h

end Sys2Proof.Machine
end

