-- ==== Sys2Proof/Laws/PerInstr.lean ====
section
/-!
SUPPORT. Laws/PerInstr.lean: the per-instruction family EncodedLength: an instruction is encoded in as many bytes as its length
(30_encoding.md rules R63 and R65).
-/

namespace Sys2Proof.Laws.EncodedLength

/-- The encoding has the instruction's length. -/
def Statement (i : Instr) : Prop := (encode i).length = i.length

theorem nop : Statement .nop := rfl
theorem ldBCnn (nn : Word) : Statement (.ldBCnn nn) := rfl
theorem ldBCA : Statement .ldBCA := rfl
theorem incBC : Statement .incBC := rfl
theorem incB : Statement .incB := rfl
theorem decB : Statement .decB := rfl
theorem ldBN (n : Byte) : Statement (.ldBN n) := rfl
theorem rlca : Statement .rlca := rfl
theorem ldnnSP (nn : Word) : Statement (.ldnnSP nn) := rfl

end Sys2Proof.Laws.EncodedLength
end

