-- ==== Sys2Proof/Laws/Registers.lean ====
section
/-!
SUPPORT. Laws/Registers.lean: what reading and writing a cell does, the two halves of a 16-bit value, and what `encode` of the
flags leaves in a byte.
-/

namespace Sys2Proof.Machine

@[simp] theorem RegFile.get_set_same (r : RegFile) (i : Reg) (v : Byte) : (r.set i v).get i = v := by
  cases i <;> rfl

theorem RegFile.get_set_ne (r : RegFile) {i j : Reg} (v : Byte) (h : j ≠ i) :
    (r.set i v).get j = r.get j := by
  cases i <;> cases j <;> first | rfl | exact absurd rfl h

/-- A register file is its eight cells. -/
theorem RegFile.ext_get {r q : RegFile} (h : ∀ i, r.get i = q.get i) : r = q := by
  cases r; cases q
  simp only [RegFile.mk.injEq]
  exact ⟨h .a, h .f, h .b, h .c, h .d, h .e, h .h, h .l⟩

@[simp] theorem lowByte_composeWord (lo hi : Byte) : lowByte (composeWord lo hi) = lo :=
  BitVec.extractLsb'_append_eq_right

@[simp] theorem highByte_composeWord (lo hi : Byte) : highByte (composeWord lo hi) = hi :=
  BitVec.extractLsb'_append_eq_left

@[simp] theorem composeWord_low_high (v : Word) : composeWord (lowByte v) (highByte v) = v :=
  (BitVec.extractLsb'_append_extractLsb'_eq_extractLsb' (start₁ := 0) (start₂ := 8) rfl).trans
    BitVec.extractLsb'_eq_self

/-- `encode` leaves bits 3 to 0 clear (10_state.md rule R23). -/
@[simp] theorem encodeFlags_low (x : Flags) : (encodeFlags x).extractLsb' 0 4 = 0 := by
  obtain ⟨z, n, h, c⟩ := x
  cases z <;> cases n <;> cases h <;> cases c <;> decide

end Sys2Proof.Machine
end

