-- ==== Sys2Proof/Laws/Step.lean ====
section
/-!
SUPPORT. Laws/Step.lean: what each meaning answers as one equation, that every instruction answers a next state, and what a
step can do.
-/

namespace Sys2Proof.Machine

variable (s : State)

theorem exec_nop : exec .nop s = .next (advancePc 1 s) := rfl
theorem exec_ldBCnn (nn : Word) : exec (.ldBCnn nn) s = .next (advancePc 3 (s.setPair .bc nn)) := rfl
theorem exec_ldBCA :
    exec .ldBCA s = .next (advancePc 1 (s.writeByte (s.getPair .bc) (s.getReg .a))) := rfl
theorem exec_incBC : exec .incBC s = .next (advancePc 1 (s.setPair .bc (s.getPair .bc + 1))) := rfl
theorem exec_incB : exec .incB s = .next (advancePc 1 ((s.setReg .b (s.getReg .b + 1)).setFlags
    (some (isZero (s.getReg .b + 1))) (some false) (some (incHalfCarry (s.getReg .b))) none)) := rfl
theorem exec_decB : exec .decB s = .next (advancePc 1 ((s.setReg .b (s.getReg .b - 1)).setFlags
    (some (isZero (s.getReg .b - 1))) (some true) (some (decHalfCarry (s.getReg .b))) none)) := rfl
theorem exec_ldBN (n : Byte) : exec (.ldBN n) s = .next (advancePc 2 (s.setReg .b n)) := rfl
theorem exec_rlca : exec .rlca s = .next (advancePc 1
    ((s.setReg .a (rotateLeftCircular (s.getReg .a))).setFlags (some false) (some false) (some false)
      (some (rotatedOut (s.getReg .a))))) := rfl
theorem exec_ldnnSP (nn : Word) : exec (.ldnnSP nn) s = .next (advancePc 3 (s.writeWord nn s.sp)) := rfl

/-- The state an instruction's handler leaves, before pc advances. -/
def handled (i : Instr) (s : State) : State :=
  match i with
  | .nop => s
  | .ldBCnn nn => s.setPair .bc nn
  | .ldBCA => s.writeByte (s.getPair .bc) (s.getReg .a)
  | .incBC => s.setPair .bc (s.getPair .bc + 1)
  | .incB => (s.setReg .b (s.getReg .b + 1)).setFlags
      (some (isZero (s.getReg .b + 1))) (some false) (some (incHalfCarry (s.getReg .b))) none
  | .decB => (s.setReg .b (s.getReg .b - 1)).setFlags
      (some (isZero (s.getReg .b - 1))) (some true) (some (decHalfCarry (s.getReg .b))) none
  | .ldBN n => s.setReg .b n
  | .rlca => (s.setReg .a (rotateLeftCircular (s.getReg .a))).setFlags (some false) (some false) (some false)
      (some (rotatedOut (s.getReg .a)))
  | .ldnnSP nn => s.writeWord nn s.sp

/-- Every instruction answers a next state: its handler's, with pc advanced by its length. -/
theorem exec_eq (i : Instr) : exec i s = .next (advancePc i.length (handled i s)) := by
  cases i <;> rfl

/-- No handler writes pc, sp or the latch (40_step_cycle.md rule R85). -/
theorem handled_frame (i : Instr) :
    (handled i s).pc = s.pc ∧ (handled i s).sp = s.sp ∧ (handled i s).fault = s.fault := by
  cases i <;> exact ⟨rfl, rfl, rfl⟩

/-- What a step does, in its three cases. -/
theorem step_cases :
    (s.fault.isSome = true ∧ step s = .next s) ∨
    (s.fault = none ∧ ∃ op, fetch s = .unrecognized op ∧ step s = .next (takeUnrecognizedOpcode op s)) ∨
    (s.fault = none ∧ ∃ i, fetch s = .insn i ∧ step s = exec i s) := by
  unfold step
  cases hf : s.fault with
  | some x => exact .inl ⟨rfl, rfl⟩
  | none =>
    cases hi : fetch s with
    | unrecognized op => exact .inr (.inl ⟨rfl, op, rfl, rfl⟩)
    | insn i => exact .inr (.inr ⟨rfl, i, rfl, rfl⟩)

end Sys2Proof.Machine
end

