-- ==== Sys2Proof/Tests/Slice0.lean ====
section
/-!
SUPPORT. Tests/Slice0.lean: the model's own tests. Expected values are the vectors of spec/95_test_vectors.md (named in the
comments) or written out from spec/30_encoding.md; the witnesses show that the hypotheses of each statement can be met.
-/

namespace Sys2Proof.Tests

open Sys2Proof Sys2Proof.Machine

/-- Power-on state with `bytes` placed at `pc`, which is also the program counter. -/
def stateAt (pc : Word) (bytes : List Byte) : State := { State.reset.placeBytes pc bytes with pc := pc }

/-- `stateAt` with chosen A, F, B, C and sp. -/
def withRegs (a f b c : Byte) (sp : Word) (s : State) : State :=
  { s with r := { s.r with a := a, f := f, b := b, c := c }, sp := sp }

/-- The state after one step. -/
def after (s : State) : State :=
  match step s with
  | .next t => t
  | .fault _ => State.reset
  | .refused _ => State.reset

/-! ## WellFormed: an ill-formed term for each check -/

theorem test_wellFormed_every_instruction :
    (Instr.ldBCnn 0xFFFF).WellFormed = true ∧ (Instr.ldBN 0xCB).WellFormed = true := by decide
theorem test_cell_index_8_refused : validCellIndex 8 = false ∧ validCellIndex 7 = true := by decide
theorem test_cell_index_15_refused : validCellIndex 0xF = false := by decide
theorem test_equal_pair_refused : validPairIndices 3 3 = false ∧ validPairIndices 3 2 = true := by decide
theorem test_pair_out_of_range_refused : validPairIndices 3 8 = false ∧ validPairIndices 8 3 = false := by decide
theorem test_image_too_long_refused : imageFits 0xFFFE 3 = false ∧ imageFits 0xFFFE 2 = true := by decide

/-! ## Decode: one word per constructor, written out bit by bit from rules R64 and R66 -/

theorem test_decode_nop : decode [0b00000000] = .insn .nop [] := by decide
theorem test_decode_ldBCnn : decode [0b00000001, 0b00110100, 0b00010010] = .insn (.ldBCnn 0x1234) [] := by decide
theorem test_decode_ldBCA : decode [0b00000010] = .insn .ldBCA [] := by decide
theorem test_decode_incBC : decode [0b00000011] = .insn .incBC [] := by decide
theorem test_decode_incB : decode [0b00000100] = .insn .incB [] := by decide
theorem test_decode_decB : decode [0b00000101] = .insn .decB [] := by decide
theorem test_decode_ldBN : decode [0b00000110, 0b01111111] = .insn (.ldBN 0x7F) [] := by decide
theorem test_decode_rlca : decode [0b00000111] = .insn .rlca [] := by decide
theorem test_decode_ldnnSP : decode [0b00001000, 0b00000000, 0b11000001] = .insn (.ldnnSP 0xC100) [] := by decide
/-- V-ENC-10 and rule R73: no prefix. -/
theorem test_decode_rejects : decode [0x09] = .unrecognized 0x09 ∧ decode [0xCB, 0x00] = .unrecognized 0xCB := by decide
/-- The bytes end inside the instruction. -/
theorem test_decode_truncated : decode [] = .truncated ∧ decode [0x06] = .truncated ∧ decode [0x01, 0x34] = .truncated := by
  decide
/-- Rule R77: 9 recognized, 247 not. -/
theorem test_decode_counts :
    ((List.range 256).filter (fun k => match decodeOpcode (BitVec.ofNat 8 k) with
      | .recognized _ => true
      | .unrecognized _ => false)).length = 9 := by decide
/-- The host's numbering of table words: the first byte is the low one. -/
theorem test_decodeTableWord :
    decodeTableWord 24 0x123401 = some (.ldBCnn 0x1234) ∧ decodeTableWord 8 0x123401 = some (.ldBCnn 0x0000) ∧
    decodeTableWord 16 0x7F06 = some (.ldBN 0x7F) ∧ decodeTableWord 8 0x09 = none := by decide
theorem test_withFetchWord :
    fetch (State.reset.withFetchWord 24 0xC10008) = .insn (.ldnnSP 0xC100) ∧
    fetch (State.reset.withFetchWord 8 0x07) = .insn .rlca := by decide

/-! ## Flags, pairs, memory (sections 3.1 to 3.3) -/

/-- V-FC-11, V-FC-12, V-FC-13. -/
theorem test_setFlags :
    ((withRegs 0 0x90 0 0 0 State.reset).setFlags none (some true) none none).r.f = 0xD0 ∧
    ((withRegs 0 0x9F 0 0 0 State.reset).setFlags none none none none).r.f = 0x90 ∧
    ((withRegs 0 0xF0 0 0 0 State.reset).setFlags (some false) none none (some false)).r.f = 0x60 := by decide
/-- V-FC-6, V-FC-10. -/
theorem test_flags_codec : encodeFlags ⟨true, false, true, false⟩ = 0xA0 ∧
    decodeFlags 0x5A = ⟨false, true, false, true⟩ := by decide
/-- V-RP-1, V-RP-4. -/
theorem test_pairs : (State.reset.setPair .bc 0x1234).r.c = 0x34 ∧ (State.reset.setPair .bc 0x1234).r.b = 0x12 ∧
    (withRegs 0x01 0xB0 0 0 0 State.reset).getPair .af = 0x01B0 := by decide
/-- V-MEM-2, V-MEM-4. -/
theorem test_word_access_wraps : (stateAt 0xFFFF [0xCD, 0xAB]).readWord 0xFFFF = 0xABCD ∧
    (State.reset.writeWord 0xFFFF 0x1234).readByte 0xFFFF = 0x34 ∧
    (State.reset.writeWord 0xFFFF 0x1234).readByte 0x0000 = 0x12 := by decide
/-- The canonical form after writes in any order, and after writing the unlisted byte. -/
theorem test_memory_canonical :
    ((State.reset.writeByte 0x0002 0x22).writeByte 0x0001 0x11).mem = [(1, 0x11), (2, 0x22)] ∧
    ((State.reset.writeByte 0x0001 0x11).writeByte 0x0001 0x00).mem = [] := by decide

/-! ## One step of each instruction (sections 3.4 to 3.13) -/

/-- V-NOP-2. -/
theorem test_nop_wraps : (after (stateAt 0xFFFF [0x00])).pc = 0x0000 := by decide
/-- V-NOP-4. -/
theorem test_nop_keeps_F : (after (withRegs 0 0xFF 0 0 0 (stateAt 0x0000 [0x00]))).r.f = 0xFF := by decide
/-- S7. -/
theorem test_ldBCnn : (after (stateAt 0 [0x01, 0x34, 0x12])).r.b = 0x12 ∧ (after (stateAt 0 [0x01, 0x34, 0x12])).r.c = 0x34 ∧
    (after (stateAt 0 [0x01, 0x34, 0x12])).pc = 3 := by decide
/-- V-LDBC-4. -/
theorem test_ldBCnn_across_top : (after (stateAt 0xFFFE [0x01, 0xCD, 0xAB])).r.b = 0xAB ∧
    (after (stateAt 0xFFFE [0x01, 0xCD, 0xAB])).pc = 0x0001 := by decide
/-- V-STA-1. -/
theorem test_ldBCA : (after (withRegs 0x5A 0 0xC0 0x00 0 (stateAt 0x0100 [0x02]))).readByte 0xC000 = 0x5A ∧
    (after (withRegs 0x5A 0 0xC0 0x00 0 (stateAt 0x0100 [0x02]))).pc = 0x0101 := by decide
/-- V-STA-2. -/
theorem test_ldBCA_own_opcode : (after (withRegs 0x04 0 0x02 0x00 0 (stateAt 0x0200 [0x02]))).readByte 0x0200 = 0x04 ∧
    (after (withRegs 0x04 0 0x02 0x00 0 (stateAt 0x0200 [0x02]))).pc = 0x0201 := by decide
/-- V-INCBC-1. -/
theorem test_incBC_carries : (after (withRegs 0 0 0x12 0xFF 0 (stateAt 0 [0x03]))).getPair .bc = 0x1300 := by decide
/-- V-INCBC-2. -/
theorem test_incBC_wraps_no_Z : (after (withRegs 0 0 0xFF 0xFF 0 (stateAt 0 [0x03]))).getPair .bc = 0x0000 ∧
    (after (withRegs 0 0 0xFF 0xFF 0 (stateAt 0 [0x03]))).r.f = 0x00 := by decide
/-- V-INC-7. -/
theorem test_incB_wraps : (after (withRegs 0 0x10 0xFF 0 0 (stateAt 0 [0x04]))).r.b = 0x00 ∧
    (after (withRegs 0 0x10 0xFF 0 0 (stateAt 0 [0x04]))).r.f = 0xB0 := by decide
/-- V-INC-2 and V-INC-8. -/
theorem test_incB_nibble_and_stray_bits : (after (withRegs 0 0x00 0x0F 0 0 (stateAt 0 [0x04]))).r.f = 0x20 ∧
    (after (withRegs 0 0x1F 0x00 0 0 (stateAt 0 [0x04]))).r.f = 0x10 := by decide
/-- V-DEC-3. -/
theorem test_decB_nibble_borrow : (after (withRegs 0 0 0x10 0 0 (stateAt 0 [0x05]))).r.b = 0x0F ∧
    (after (withRegs 0 0 0x10 0 0 (stateAt 0 [0x05]))).r.f = 0x60 := by decide
/-- V-DEC-2 and V-DEC-9. -/
theorem test_decB_zero_and_wrap : (after (withRegs 0 0 0x01 0 0 (stateAt 0 [0x05]))).r.f = 0xC0 ∧
    (after (withRegs 0 0x0F 0x00 0 0 (stateAt 0 [0x05]))).r.f = 0x60 := by decide
/-- V-LDB-2. -/
theorem test_ldBN_keeps_Z : (after (withRegs 0 0 0x55 0 0 (stateAt 0 [0x06, 0x00]))).r.b = 0x00 ∧
    (after (withRegs 0 0 0x55 0 0 (stateAt 0 [0x06, 0x00]))).r.f = 0x00 := by decide
/-- V-LDB-3. -/
theorem test_ldBN_across_top : (after (stateAt 0xFFFF [0x06, 0x7F])).r.b = 0x7F ∧
    (after (stateAt 0xFFFF [0x06, 0x7F])).pc = 0x0001 := by decide
/-- V-RLCA-1. -/
theorem test_rlca : (after (withRegs 0x85 0xE0 0 0 0 (stateAt 0 [0x07]))).r.a = 0x0B ∧
    (after (withRegs 0x85 0xE0 0 0 0 (stateAt 0 [0x07]))).r.f = 0x10 := by decide
/-- V-RLCA-5. -/
theorem test_rlca_not_through_carry : (after (withRegs 0x01 0x10 0 0 0 (stateAt 0 [0x07]))).r.a = 0x02 ∧
    (after (withRegs 0x01 0x10 0 0 0 (stateAt 0 [0x07]))).r.f = 0x00 := by decide
/-- V-STSP-2. -/
theorem test_ldnnSP_wraps : (after (withRegs 0 0 0 0 0x1234 (stateAt 0x0100 [0x08, 0xFF, 0xFF]))).readByte 0xFFFF = 0x34 ∧
    (after (withRegs 0 0 0 0 0x1234 (stateAt 0x0100 [0x08, 0xFF, 0xFF]))).readByte 0x0000 = 0x12 := by decide
/-- V-STSP-3. -/
theorem test_ldnnSP_own_bytes :
    (after (withRegs 0 0 0 0 0xA5C3 (stateAt 0 [0x08, 0x01, 0x00]))).mem = [(0, 0x08), (1, 0xC3), (2, 0xA5)] ∧
    (after (withRegs 0 0 0 0 0xA5C3 (stateAt 0 [0x08, 0x01, 0x00]))).pc = 0x0003 := by decide
/-- V-UNK-2. -/
theorem test_unrecognized : after (stateAt 0 [0xCB]) = { stateAt 0 [0xCB] with fault := some ⟨0xCB, 0x0000⟩ } := by decide
/-- V-UNK-5. -/
theorem test_stopped : after { stateAt 2 [0x09] with fault := some ⟨0x09, 0x0002⟩ } =
    { stateAt 2 [0x09] with fault := some ⟨0x09, 0x0002⟩ } := by decide

/-! ## The host (section 3.3, program P5, and the hook on P1) -/

/-- V-MEM-5 and V-MEM-6. -/
theorem test_load_at_top :
    load 0xFFFE [0x01, 0x02] State.reset =
      .next { State.reset with mem := [(0xFFFE, 0x01), (0xFFFF, 0x02)] } ∧
    load 0xFFFE [0x01, 0x02, 0x03] State.reset = .fault .loadOutOfBounds := ⟨rfl, rfl⟩
/-- The trigger opcode INC B gives a dump, another opcode none, and an unrecognized trigger none (V-UNK-7). -/
theorem test_dump : (stepDump ⟨0, some 0x04⟩ (stateAt 0 [0x04])).isSome = true ∧
    stepDump ⟨0, some 0x04⟩ (stateAt 0 [0x05]) = none ∧ stepDump ⟨0, some 0x09⟩ (stateAt 0 [0x09]) = none :=
  ⟨rfl, rfl, rfl⟩
/-- Rule R49: the accesses of LD (nn),SP in order. -/
theorem test_bus_ldnnSP : stepAccesses (withRegs 0 0 0 0 0xBEEF (stateAt 0 [0x08, 0x00, 0xC1])) =
    [.read 0 0x08, .read 1 0x00, .read 2 0xC1, .write 0xC100 0xEF, .write 0xC101 0xBE] := by decide
/-- Rule R111: a step before the load, and a second load, are out of order. -/
theorem test_moves_out_of_order :
    hostMove Config.default (.poweredOn State.reset) .step = .refused .hostMoveOutOfOrder ∧
    hostMove Config.default (.running State.reset) (.romLoad []) = .refused .hostMoveOutOfOrder := ⟨rfl, rfl⟩
/-- Rules R126 and R127: the error names. -/
theorem test_error_names : (after (stateAt 0 [0x09])).error = some .unrecognizedOpcode ∧
    outcomeError (load 0xFFFF [0, 0] State.reset) = some .loadOutOfBounds ∧
    outcomeError (portGet 8 State.reset) = some .invalidRegisterIndex := by decide

/-! ## Witnesses: the hypotheses of each statement, met -/

theorem witness_LengthIsAFunctionOfTheOpcodeByte : decode (0x01 :: [0x34, 0x12, 0x00]) = .insn (.ldBCnn 0x1234) [0x00] := by
  decide
theorem witness_UnrecognizedByteIsRejectedWhateverFollows :
    0x09 ≤ (0x09 : Byte).toNat ∧ 0x09 ≤ (0xFF : Byte).toNat := by decide
theorem witness_CellWriteChangesThatCellAlone : Reg.a ≠ Reg.f ∧ Reg.f ≠ Reg.l := by decide
theorem witness_PairReadComposesAndPairWriteSplits :
    Reg.c ≠ Reg.b ∧ Reg.a ≠ Reg.c ∧ Reg.a ≠ Reg.b := by decide
theorem witness_PairRoundTripIsExact : Reg.f ≠ Reg.a ∧ Reg.l ≠ Reg.h := by decide
theorem witness_PairIsAViewOfItsCells : Reg.a ≠ Pair.bc.lo ∧ Reg.a ≠ Pair.bc.hi := by decide
theorem witness_RegisterPortRefusesBadIndices : 8 ≤ 8 ∧ 8 ≤ 0xF ∧ Reg.a ≠ Reg.l := by decide
/-- Both indices bad, equal and different: the low one is named (log 13). -/
theorem witness_RegisterPort_both_indices_bad :
    portGetPair 8 8 State.reset = .refused (.invalidRegisterIndex 8) ∧
    portGetPair 8 9 State.reset = .refused (.invalidRegisterIndex 8) ∧
    portSetPair 9 8 0x1234 State.reset = .refused (.invalidRegisterIndex 9) := ⟨rfl, rfl, rfl⟩
theorem witness_SetFlagsOverridesAndKeepsTheRest : Reg.b ≠ Reg.f := by decide
theorem witness_ByteWriteChangesThatAddressAlone : (0xFFFF : Word) ≠ 0x0000 := by decide
theorem witness_WordWriteIsTwoByteWritesLowFirst :
    (0x0001 : Word) ≠ 0xFFFF ∧ (0x0001 : Word) ≠ (0xFFFF : Word) + 1 := by decide
theorem witness_CanonicalMemoriesThatReadAlikeAreEqual :
    Memory.wf [(0, 0x01), (65535, 0xFF)] ∧
    ∀ a : Word, Memory.readByte [(0, 0x01), (65535, 0xFF)] a = Memory.readByte [(0, 0x01), (65535, 0xFF)] a :=
  ⟨by decide, fun _ => rfl⟩
theorem witness_LoadPlacesTheBytesOrFails :
    (0xFFFE : Word).toNat + [0x01, (0x02 : Byte)].length ≤ 65536 ∧
    65536 < (0xFFFE : Word).toNat + [0x01, 0x02, (0x03 : Byte)].length ∧
    (0xFFFD : Word).toNat < (0xFFFE : Word).toNat ∧
    (0x0000 : Word).toNat + [(0x01 : Byte)].length ≤ (0x0001 : Word).toNat := by decide
theorem witness_StepRunsTheDecodedInstruction :
    (stateAt 0xFFFF [0x01, 0x78, 0x56]).fault = none ∧
    decode [(stateAt 0xFFFF [0x01, 0x78, 0x56]).readByte 0xFFFF, (stateAt 0xFFFF [0x01, 0x78, 0x56]).readByte (0xFFFF + 1),
      (stateAt 0xFFFF [0x01, 0x78, 0x56]).readByte (0xFFFF + 2)] = .insn (.ldBCnn 0x5678) [] := by decide
theorem witness_UnrecognizedOpcodeSetsTheLatchOnly :
    (stateAt 2 [0x09]).fault = none ∧ 0x09 ≤ ((stateAt 2 [0x09]).readByte (stateAt 2 [0x09]).pc).toNat := by decide
theorem witness_NothingElseSetsTheLatch : (stateAt 0 [0x08]).fault = none ∧ (after (stateAt 0 [0x08])).fault = none ∧
    (after (stateAt 0 [0x09])).fault ≠ none := by decide
theorem witness_StoppedCoreStaysAsItIs : ({ State.reset with fault := some ⟨0x09, 0⟩ } : State).fault.isSome = true := by
  decide
theorem witness_LdBCAStoresTheAccumulatorAtBC : (0x0001 : Word) ≠ addressBC State.reset := by decide
theorem witness_IncBCAddsOneAndWritesNoFlag : Reg.f ≠ Reg.b ∧ Reg.f ≠ Reg.c := by decide
theorem witness_IncBCountsUpAndSetsFlags : Reg.c ≠ Reg.b ∧ Reg.c ≠ Reg.f := by decide
theorem witness_DecBCountsDownAndSetsFlags : Reg.c ≠ Reg.b ∧ Reg.c ≠ Reg.f := by decide
theorem witness_RlcaRotatesTheAccumulator : Reg.b ≠ Reg.a ∧ Reg.b ≠ Reg.f ∧ 7 < 8 ∧ 0 < 8 := by decide
theorem witness_LdnnSPStoresTheStackPointer :
    (0x0001 : Word) ≠ (addressAbsolute 0xFFFF).1 ∧ (0x0001 : Word) ≠ (addressAbsolute 0xFFFF).2 := by decide
theorem witness_RepeatedRotationLaws : 8 ≤ 8 ∧ 1 ≤ 8 ∧ 7 < 8 ∧ 1 ≤ 1 ∧ 0 ≤ 8 := by decide
theorem witness_EveryInstructionStaysInItsWriteSet : Reg.f ∉ registerWrites .incBC ∧ Reg.l ∉ registerWrites .rlca := by decide
theorem witness_OnlyTheTwoStoresWriteMemory : Instr.nop ≠ .ldBCA ∧ ∀ nn, Instr.nop ≠ .ldnnSP nn := ⟨by decide, nofun⟩
theorem witness_FlagsNeverSteerExecution : Reg.a ≠ Reg.f := by decide
theorem witness_EveryStepKeepsTheMachineInvariant : (withRegs 0x5A 0xF0 0xC0 0 0 (stateAt 0x0100 [0x02])).Inv := by decide
theorem witness_EveryStepKeepsTheReachableFacts : (withRegs 0 0xE0 0xC0 0x01 0 (stateAt 0x0100 [0x05])).PowerOnInv := by decide
theorem witness_ReachableStatesMeetBothInvariants : Reachable Config.default (stateAt 0 [0x04]) :=
  .loaded [0x04] _ rfl
theorem witness_BusHistoryReplaysToTheNewMemory : (stateAt 0 [0x09]).fault = none ∧
    BusAccess.read 0 0x09 ∈ stepAccesses (stateAt 0 [0x09]) ∧
    ({ stateAt 0 [0x09] with fault := some ⟨0x09, 0⟩ } : State).fault.isSome = true := by decide
theorem witness_BusHistory_fetch_cases : fetchAddresses (stateAt 0xFFFF [0x08, 0x00, 0xC1]) = [0xFFFF, 0, 1] ∧
    fetchAddresses (stateAt 0xFFFF [0x06, 0x7F]) = [0xFFFF, 0] ∧
    fetchAddresses (stateAt 0 [0x09]) = [0] ∧ fetchAddresses (stateAt 0 [0x02]) = [0] := by decide
theorem witness_StoreAheadOfPcIsWhatTheNextStepFetches :
    (withRegs 0x04 0 0x03 0x01 0 (stateAt 0x0300 [0x02])).fault = none ∧
    (withRegs 0x04 0 0x03 0x01 0 (stateAt 0x0300 [0x02])).readByte 0x0300 = 0x02 ∧
    addressBC (withRegs 0x04 0 0x03 0x01 0 (stateAt 0x0300 [0x02])) = (0x0300 : Word) + 1 ∧
    (withRegs 0x04 0 0x02 0x00 0 (stateAt 0x0200 [0x02])).fault = none ∧
    (withRegs 0x04 0 0x02 0x00 0 (stateAt 0x0200 [0x02])).readByte 0x0200 = 0x02 ∧
    addressBC (withRegs 0x04 0 0x02 0x00 0 (stateAt 0x0200 [0x02])) = (stateAt 0x0200 [0x02]).pc := by decide
theorem witness_ZeroMemoryRunsAsNops : State.reset.fault = none ∧ ∀ a : Word, State.reset.readByte a = 0 :=
  ⟨rfl, fun _ => rfl⟩
theorem witness_BootStartsAtAddressZero :
    (0xFFFD : Word).toNat + [0x06, 0x2A, (0x04 : Byte)].length ≤ 65536 ∧
    (0xFFFC : Word).toNat < (0xFFFD : Word).toNat ∧
    (0x0000 : Word).toNat + [(0x01 : Byte)].length ≤ (0x0001 : Word).toNat := by decide
theorem witness_OversizedImageHasNoRun : 65536 < (0xFFFE : Word).toNat + [0x00, 0x00, (0x00 : Byte)].length := by decide
theorem witness_OnlyStepsChangeARunningCore :
    hostMove Config.default (.running State.reset) .step =
      .next (.running (after State.reset), .stepped none none) := rfl
theorem witness_OnlyStepsChangeARunningCore_other_moves :
    (∀ dump, HostMove.step ≠ .endSession dump) ∧
    (Session.halted State.reset = .poweredOn State.reset ∨ Session.halted State.reset = .running State.reset ∨
      Session.halted State.reset = .halted State.reset) := ⟨nofun, .inr (.inr rfl)⟩
theorem witness_DiagnosticHookIsPassive :
    ∃ replies, hostMoves { loadBase := 0, diagTrigger := some 0x00 } .off [.powerOn, .romLoad [], .step] =
      .next (.running (after State.reset), replies) := ⟨_, rfl⟩
theorem witness_DumpFollowsTheTriggerOpcode : ∃ d, stepDump ⟨0, some 0x00⟩ State.reset = some d := ⟨_, rfl⟩

end Sys2Proof.Tests
end

/-!
PROOFS. 10_state.md, the rules: what reading a cell, a pair or the flags answers after each register operation.
-/

namespace Sys2Proof.Machine

/-! ### Cells (rule R13) -/

@[simp] theorem State.getReg_setReg_same (s : State) (i : Reg) (v : Byte) : (s.setReg i v).getReg i = v :=
  RegFile.get_set_same s.r i v

theorem State.getReg_setReg_ne (s : State) {i j : Reg} (v : Byte) (h : j ≠ i) :
    (s.setReg i v).getReg j = s.getReg j :=
  RegFile.get_set_ne s.r v h

@[simp] theorem State.getReg_writeByte (s : State) (a : Word) (v : Byte) (i : Reg) :
    (s.writeByte a v).getReg i = s.getReg i := rfl

@[simp] theorem State.getReg_writeWord (s : State) (a v : Word) (i : Reg) :
    (s.writeWord a v).getReg i = s.getReg i := rfl

@[simp] theorem State.getReg_advancePc (s : State) (k : Nat) (i : Reg) :
    (advancePc k s).getReg i = s.getReg i := rfl

/-! ### Pairs (rules R15, R16 and R18) -/

theorem toNat_composeWord (lo hi : Byte) : (composeWord lo hi).toNat = lo.toNat + 256 * hi.toNat := by
  rw [composeWord, BitVec.toNat_append, ← Nat.shiftLeft_add_eq_or_of_lt lo.isLt, Nat.shiftLeft_eq]
  omega

@[simp] theorem RegFile.get_setPair_hi (r : RegFile) (lo hi : Reg) (v : Word) :
    (r.setPair lo hi v).get hi = highByte v :=
  RegFile.get_set_same _ hi _

theorem RegFile.get_setPair_lo (r : RegFile) {lo hi : Reg} (v : Word) (h : lo ≠ hi) :
    (r.setPair lo hi v).get lo = lowByte v := by
  rw [RegFile.setPair, RegFile.get_set_ne _ _ h, RegFile.get_set_same]

theorem RegFile.get_setPair_ne (r : RegFile) {lo hi k : Reg} (v : Word) (hlo : k ≠ lo) (hhi : k ≠ hi) :
    (r.setPair lo hi v).get k = r.get k := by
  rw [RegFile.setPair, RegFile.get_set_ne _ _ hhi, RegFile.get_set_ne _ _ hlo]

theorem RegFile.getPair_setPair (r : RegFile) {lo hi : Reg} (v : Word) (h : lo ≠ hi) :
    (r.setPair lo hi v).getPair lo hi = v := by
  rw [RegFile.getPair, RegFile.get_setPair_lo r v h, RegFile.get_setPair_hi, composeWord_low_high]

theorem RegFile.setPair_getPair (r : RegFile) {lo hi : Reg} (h : lo ≠ hi) :
    r.setPair lo hi (r.getPair lo hi) = r := by
  refine RegFile.ext_get fun k => ?_
  by_cases hlo : k = lo
  · rw [hlo, RegFile.get_setPair_lo r _ h, RegFile.getPair, lowByte_composeWord]
  by_cases hhi : k = hi
  · rw [hhi, RegFile.get_setPair_hi, RegFile.getPair, highByte_composeWord]
  exact RegFile.get_setPair_ne r _ hlo hhi

theorem Pair.lo_ne_hi (p : Pair) : p.lo ≠ p.hi := by
  cases p <;> decide

theorem State.getPair_eq (s : State) (p : Pair) : s.getPair p = composeWord (s.getReg p.lo) (s.getReg p.hi) := rfl

theorem State.getReg_setPair_lo (s : State) (p : Pair) (w : Word) : (s.setPair p w).getReg p.lo = lowByte w :=
  RegFile.get_setPair_lo s.r w p.lo_ne_hi

theorem State.getReg_setPair_hi (s : State) (p : Pair) (w : Word) : (s.setPair p w).getReg p.hi = highByte w :=
  RegFile.get_setPair_hi s.r p.lo p.hi w

theorem State.getReg_setPair_ne (s : State) {p : Pair} {k : Reg} (w : Word) (hlo : k ≠ p.lo) (hhi : k ≠ p.hi) :
    (s.setPair p w).getReg k = s.getReg k :=
  RegFile.get_setPair_ne s.r w hlo hhi

/-! ### Flags (rules R23 to R27) -/

theorem toNat_encodeFlags (x : Flags) :
    (encodeFlags x).toNat = x.z.toNat * 128 + x.n.toNat * 64 + x.h.toNat * 32 + x.c.toNat * 16 := by
  obtain ⟨z, n, h, c⟩ := x
  cases z <;> cases n <;> cases h <;> cases c <;> rfl

theorem getElem_flagBit (v : Bool) {k : Nat} (hk : k < 8) : (flagBit v)[k] = (decide (k = 0) && v) := by
  cases v <;> simp [flagBit]

/-- The eight bits of an encoded flags byte, bit 0 first (rule R23). -/
theorem getLsbD_encodeFlags (x : Flags) {k : Nat} (hk : k < 8) :
    (encodeFlags x).getLsbD k = [false, false, false, false, x.c, x.h, x.n, x.z][k] := by
  interval_cases k <;> simp [encodeFlags, getElem_flagBit]

@[simp] theorem decodeFlags_encodeFlags (x : Flags) : decodeFlags (encodeFlags x) = x := by
  simp only [decodeFlags, getLsbD_encodeFlags, Nat.reduceLT]
  rfl

/-- The mask 0xF0 keeps exactly the bits that `decode` reads. -/
theorem encodeFlags_decodeFlags (v : Byte) : encodeFlags (decodeFlags v) = v &&& 0xF0 := by
  refine BitVec.eq_of_getLsbD_eq fun k hk => ?_
  rw [getLsbD_encodeFlags _ hk, BitVec.getLsbD_and]
  interval_cases k <;> simp [decodeFlags]

theorem decodeFlags_mask (v : Byte) : decodeFlags (v &&& 0xF0) = decodeFlags v := by
  rw [← encodeFlags_decodeFlags, decodeFlags_encodeFlags]

theorem State.getReg_setFlags_f (s : State) (z n h c : Option Bool) :
    (s.setFlags z n h c).getReg .f = encodeFlags
      ⟨z.getD s.flags.z, n.getD s.flags.n, h.getD s.flags.h, c.getD s.flags.c⟩ :=
  State.getReg_setReg_same s .f _

theorem State.getReg_setFlags_ne (s : State) (z n h c : Option Bool) {j : Reg} (hj : j ≠ .f) :
    (s.setFlags z n h c).getReg j = s.getReg j :=
  State.getReg_setReg_ne s _ hj

theorem State.flags_setFlags (s : State) (z n h c : Option Bool) : (s.setFlags z n h c).flags =
    ⟨z.getD s.flags.z, n.getD s.flags.n, h.getD s.flags.h, c.getD s.flags.c⟩ := by
  rw [State.flags, State.getReg_setFlags_f, decodeFlags_encodeFlags]

/-- `set_flags` reads no cell but F: a write to another cell before it does not show in the F it leaves. -/
theorem State.getReg_f_setFlags_setReg (s : State) (z n h c : Option Bool) {i : Reg} (v : Byte) (hi : .f ≠ i) :
    ((s.setReg i v).setFlags z n h c).getReg .f = (s.setFlags z n h c).getReg .f := by
  have hflags : (s.setReg i v).flags = s.flags := by
    rw [State.flags, State.getReg_setReg_ne s v hi, State.flags]
  rw [State.getReg_setFlags_f, hflags, ← State.getReg_setFlags_f]

/-- The only handler writes to F are those of `set_flags`, in INC B, DEC B and RLCA (rule R13). -/
theorem getReg_f_handled (i : Instr) (s : State) :
    (handled i s).getReg .f = s.getReg .f ∨
      ∃ z n h c, (handled i s).getReg .f = (s.setFlags z n h c).getReg .f := by
  cases i with
  | nop => exact .inl rfl
  | ldBCnn nn => exact .inl (State.getReg_setPair_ne s nn (by decide) (by decide))
  | ldBCA => exact .inl (State.getReg_writeByte s _ _ .f)
  | incBC => exact .inl (State.getReg_setPair_ne s _ (by decide) (by decide))
  | incB => exact .inr ⟨_, _, _, _, State.getReg_f_setFlags_setReg s _ _ _ _ _ (by decide)⟩
  | decB => exact .inr ⟨_, _, _, _, State.getReg_f_setFlags_setReg s _ _ _ _ _ (by decide)⟩
  | ldBN n => exact .inl (State.getReg_setReg_ne s n (by decide))
  | rlca => exact .inr ⟨_, _, _, _, State.getReg_f_setFlags_setReg s _ _ _ _ _ (by decide)⟩
  | ldnnSP nn => exact .inl (State.getReg_writeWord s nn s.sp .f)

/-! ### The obligations of 10_state.md -/

/-- Settles O7: the cell laws of a write, and the handlers' effect on F. -/
theorem cellWriteChangesThatCellAlone : Obligations.CellWriteChangesThatCellAlone := by
  refine ⟨fun s i v => ⟨State.getReg_setReg_same s i v, fun j hj => State.getReg_setReg_ne s v hj,
    rfl, rfl, rfl, rfl⟩, fun i s => ?_⟩
  exact ⟨_, exec_eq s i, getReg_f_handled i s⟩

/-- Settles O8, by the value of a composed word and the cells a pair write leaves. -/
theorem pairReadComposesAndPairWriteSplits : Obligations.PairReadComposesAndPairWriteSplits :=
  fun r _ _ h => ⟨rfl, toNat_composeWord _ _, fun v => ⟨RegFile.get_setPair_lo r v h,
    RegFile.get_setPair_hi r _ _ v, fun _ hlo hhi => RegFile.get_setPair_ne r v hlo hhi⟩⟩

/-- Settles O9, cell by cell. -/
theorem pairRoundTripIsExact : Obligations.PairRoundTripIsExact :=
  fun r _ _ h => ⟨fun v => RegFile.getPair_setPair r v h, RegFile.setPair_getPair r h⟩

/-- Settles O14: the write to F goes through `encode`, and `decode` inverts it. -/
theorem setFlagsOverridesAndKeepsTheRest : Obligations.SetFlagsOverridesAndKeepsTheRest := by
  intro s z n h c t
  have hflags := State.flags_setFlags s z n h c
  have hF : t.getReg .f = encodeFlags t.flags := by rw [hflags, State.getReg_setFlags_f]
  refine ⟨hflags, hF, ?_, fun j hj => State.getReg_setFlags_ne s z n h c hj, rfl, rfl, rfl, rfl⟩
  rw [hF, encodeFlags_low]

/-- Settles O10: a pair read is the composition of its two distinct cells. -/
theorem pairIsAViewOfItsCells : Obligations.PairIsAViewOfItsCells := by
  refine ⟨fun x => ⟨or_comm, or_comm, or_comm, or_comm⟩, fun s p v w => ?_⟩
  refine ⟨?_, ?_, State.getReg_setPair_lo s p w, State.getReg_setPair_hi s p w, fun k hlo hhi => ⟨?_, ?_⟩⟩
  · rw [State.getPair_eq, State.getReg_setReg_ne s v p.lo_ne_hi, State.getReg_setReg_same]
  · rw [State.getPair_eq, State.getReg_setReg_ne s v p.lo_ne_hi.symm, State.getReg_setReg_same]
  · rw [State.getPair_eq, State.getReg_setReg_ne s v hlo.symm, State.getReg_setReg_ne s v hhi.symm, State.getPair_eq]
  · exact State.getReg_setPair_ne s w hlo hhi

/-- Settles O12, from the value and the bits of an encoded byte. -/
theorem flagsEncodeToBitsSevenToFour : Obligations.FlagsEncodeToBitsSevenToFour :=
  fun z n h c => ⟨toNat_encodeFlags ⟨z, n, h, c⟩, getLsbD_encodeFlags _ (by decide), getLsbD_encodeFlags _ (by decide),
    getLsbD_encodeFlags _ (by decide), getLsbD_encodeFlags _ (by decide), encodeFlags_low _⟩

/-- Settles O13: the two codec laws; that `decode` ignores bits 3 to 0 follows from them. -/
theorem flagsCodecLaws : Obligations.FlagsCodecLaws :=
  ⟨decodeFlags_encodeFlags, encodeFlags_decodeFlags, fun v => ⟨(decodeFlags_mask v).symm, rfl⟩⟩

end Sys2Proof.Machine

/-!
PROOFS. 20_memory.md, the rules: a byte write, and a second write to the same address. They hold of every list, canonical or not.
-/

namespace Sys2Proof.Machine

/-! ### A byte write on the state (rule R42) -/

@[simp] theorem State.readByte_writeByte_same (s : State) (a : Word) (v : Byte) : (s.writeByte a v).readByte a = v :=
  Memory.readByte_writeByte_same a

theorem State.readByte_writeByte_ne (s : State) {a b : Word} (v : Byte) (h : b ≠ a) :
    (s.writeByte a v).readByte b = s.readByte b :=
  Memory.readByte_writeByte_ne h

/-! ### A store over a store (rule R43) -/

theorem Memory.erase_cons (c : Host.Cell) (rest : Memory) (k : Nat) :
    Memory.erase (c :: rest) k = if c.1 = k then rest.erase k else c :: rest.erase k := by
  by_cases h : c.1 = k <;> simp [Memory.erase, h]

theorem Memory.erase_erase_same (m : Memory) (k : Nat) : (m.erase k).erase k = m.erase k := by
  simp [Memory.erase]

theorem Memory.erase_insertCell_same (m : Memory) (k : Nat) (v : Byte) : (m.insertCell k v).erase k = m.erase k := by
  induction m with
  | nil => simp [Memory.insertCell, Memory.erase]
  | cons c rest ih =>
    rw [Memory.insertCell]
    split
    · simp [Memory.erase_cons]
    · simp [Memory.erase_cons, ih]

/-- Erasing a stored key forgets what was stored there. -/
theorem Memory.erase_store_same (m : Memory) (k : Nat) (v : Byte) : (m.store k v).erase k = m.erase k := by
  unfold Memory.store
  split
  · exact Memory.erase_erase_same m k
  · rw [Memory.erase_insertCell_same, Memory.erase_erase_same]

/-- The last store to a key decides: the list it leaves is the one it leaves without the store before it. -/
theorem Memory.store_store_same (m : Memory) (k : Nat) (v w : Byte) : (m.store k v).store k w = m.store k w := by
  rw [Memory.store, Memory.erase_store_same, ← Memory.store]

theorem State.writeByte_writeByte_same (s : State) (a : Word) (v w : Byte) :
    (s.writeByte a v).writeByte a w = s.writeByte a w := by
  have hmem : (s.mem.writeByte a v).writeByte a w = s.mem.writeByte a w := Memory.store_store_same s.mem a.toNat v w
  rw [State.writeByte, State.writeByte_mem, hmem]
  rfl

/-! ### The obligations of 20_memory.md -/

/-- Settles O15: a read after a write, at the address and at another; the other fields are not part of the update. -/
theorem byteWriteChangesThatAddressAlone : Obligations.ByteWriteChangesThatAddressAlone :=
  fun s a v => ⟨State.readByte_writeByte_same s a v, fun _ h => State.readByte_writeByte_ne s v h,
    State.writeByte_r s v a, State.writeByte_pc s v a, State.writeByte_sp s v a, State.writeByte_fault s v a⟩

/-- Settles O16: a read transaction is the identity on memory, and the second of two writes to an address decides. -/
theorem accessesHaveNoSideEffects : Obligations.AccessesHaveNoSideEffects :=
  ⟨fun _ _ _ => rfl, fun s a v => State.writeByte_writeByte_same s a v v⟩

end Sys2Proof.Machine

/-!
PROOFS. 30_encoding.md, the rules: which bytes the opcode table recognizes, and that the bytes an instruction is decoded from
start with its encoding.
-/

namespace Sys2Proof

/-! ### The opcode table (rule R66) -/

theorem decodeOpcode_eq_recognized_iff {op : Byte} {o : Opcode} : decodeOpcode op = .recognized o ↔ op = o.byte :=
  ⟨decodeOpcode_recognized, fun h => h ▸ decodeOpcode_byte o⟩

/-- The two verdicts exclude each other and there is no third. -/
theorem decodeOpcode_eq_unrecognized_iff {op : Byte} :
    decodeOpcode op = .unrecognized op ↔ ¬ ∃ o : Opcode, op = o.byte := by
  simp only [← decodeOpcode_eq_recognized_iff]
  cases hv : decodeOpcode op with
  | recognized o => simp
  | unrecognized v => simp [decodeOpcode_unrecognized hv]

/-- Row `k` of the table has the byte `k`. -/
theorem Opcode.toNat_byte_getElem_all : ∀ k : Fin Opcode.all.length, Opcode.all[k].byte.toNat = k := by
  decide

theorem Opcode.exists_byte_eq_iff {op : Byte} : (∃ o : Opcode, op = o.byte) ↔ op.toNat < 0x09 := by
  constructor
  · rintro ⟨o, rfl⟩
    cases o <;> decide
  · intro h
    exact ⟨Opcode.all[op.toNat], BitVec.eq_of_toNat_eq (Opcode.toNat_byte_getElem_all ⟨op.toNat, h⟩).symm⟩

/-! ### The byte-sequence decoder (rules R63 to R65) -/

/-- The bytes that follow the opcode in each format of rule R63. -/
def Format.operandBytes (n : Byte) (nn : Word) : Format → List Byte
  | .op => []
  | .opN => [n]
  | .opNN => [lowByte nn, highByte nn]

theorem encode_instr (o : Opcode) (n : Byte) (nn : Word) :
    encode (o.instr n nn) = o.byte :: o.format.operandBytes n nn := by
  cases o <;> rfl

/-- Rule R65, as an instance for each row of `Laws.EncodedLength.Statement`. -/
theorem length_encode (i : Instr) : (encode i).length = i.length := by
  cases i with
  | nop => exact Laws.EncodedLength.nop
  | ldBCnn nn => exact Laws.EncodedLength.ldBCnn nn
  | ldBCA => exact Laws.EncodedLength.ldBCA
  | incBC => exact Laws.EncodedLength.incBC
  | incB => exact Laws.EncodedLength.incB
  | decB => exact Laws.EncodedLength.decB
  | ldBN n => exact Laws.EncodedLength.ldBN n
  | rlca => exact Laws.EncodedLength.rlca
  | ldnnSP nn => exact Laws.EncodedLength.ldnnSP nn

/-- What is decoded was encoded: an instruction is read only from bytes that start with its encoding. -/
theorem eq_encode_append_of_decode {bytes rest : List Byte} {i : Instr} (h : decode bytes = .insn i rest) :
    bytes = encode i ++ rest := by
  unfold decode at h
  split at h
  · cases h
  next op tail =>
    split at h
    · cases h
    next o ho =>
      rw [decodeOpcode_recognized ho]
      split at h
      case h_4 => cases h
      all_goals
        rename_i hformat
        obtain ⟨rfl, rfl⟩ := Decoded.insn.inj h
        simp [encode_instr, hformat, Format.operandBytes]

/-! ### The obligations of 30_encoding.md -/

/-- Settles O3: the bytes are the instruction's encoding and the rest, so their first is the opcode's byte. -/
theorem lengthIsAFunctionOfTheOpcodeByte : Obligations.LengthIsAFunctionOfTheOpcodeByte := by
  intro op tail i rest h
  have hbytes := eq_encode_append_of_decode h
  have hop : op = i.opcode.byte := (List.cons.inj hbytes).1
  refine ⟨decodeOpcode_eq_recognized_iff.mpr hop, rfl, ?_⟩
  rw [hbytes, List.length_append, length_encode]

/-- Settles O2: recognized means equal to a row's byte, and the rows' bytes are those below 0x09. -/
theorem opcodeByteSelectsItsTableRow : Obligations.OpcodeByteSelectsItsTableRow := by
  refine fun op => ⟨fun o => ?_, ?_⟩
  · rw [decodeOpcode_eq_recognized_iff]
    cases o <;> simp [Opcode.byte, Opcode.format, Opcode.length, Format.length]
  · rw [decodeOpcode_eq_unrecognized_iff, Opcode.exists_byte_eq_iff, not_lt]

end Sys2Proof

/-!
PROOFS. 42_inc_dec.md, the rules: Z and H read off the operand before the operation, and the flags that INC B and DEC B leave.
-/

namespace Sys2Proof.Machine

/-! ### Z and H from the old operand (rules R101 and R104) -/

/-- The result of a decrement is 0 exactly from 1. -/
theorem isZero_sub_one (old : Byte) : isZero (old - 1) = decide (old = 0x01) := by
  rw [Bool.eq_iff_iff, isZero, beq_iff_eq, decide_eq_true_iff]
  exact sub_eq_zero

theorem incHalfCarry_iff (old : Byte) : incHalfCarry old = true ↔ old.extractLsb' 0 4 = 0xF :=
  beq_iff_eq

theorem decHalfCarry_iff (old : Byte) : decHalfCarry old = true ↔ old.extractLsb' 0 4 = 0x0 :=
  beq_iff_eq

/-- The low nibble of a byte as a number. -/
theorem toNat_lowNibble (old : Byte) : (old.extractLsb' 0 4).toNat = old.toNat % 16 := by
  rw [BitVec.extractLsb'_toNat, Nat.shiftRight_zero]

theorem decHalfCarry_eq_decide (old : Byte) : decHalfCarry old = decide (old.toNat % 16 = 0) := by
  rw [Bool.eq_iff_iff, decHalfCarry_iff, decide_eq_true_iff, ← toNat_lowNibble]
  exact BitVec.toNat_inj.symm

/-! ### A cell write followed by `set_flags` (rules R103 and R104) -/

@[simp] theorem State.flags_advancePc (s : State) (k : Nat) : (advancePc k s).flags = s.flags := rfl

/-- The flags kept by `set_flags` are those from before a write to another cell. -/
theorem State.flags_setFlags_setReg (s : State) (z n h c : Option Bool) {i : Reg} (v : Byte) (hi : .f ≠ i) :
    ((s.setReg i v).setFlags z n h c).flags =
      ⟨z.getD s.flags.z, n.getD s.flags.n, h.getD s.flags.h, c.getD s.flags.c⟩ := by
  rw [State.flags, State.getReg_f_setFlags_setReg s z n h c v hi, ← State.flags, State.flags_setFlags]

/-- `set_flags` leaves bits 3 to 0 of F clear (rule R27). -/
theorem State.getReg_f_setFlags_low (s : State) (z n h c : Option Bool) :
    ((s.setFlags z n h c).getReg .f).extractLsb' 0 4 = 0 := by
  rw [State.getReg_setFlags_f, encodeFlags_low]

theorem State.getReg_setFlags_setReg_same (s : State) (z n h c : Option Bool) {i : Reg} (v : Byte) (hi : i ≠ .f) :
    ((s.setReg i v).setFlags z n h c).getReg i = v := by
  rw [State.getReg_setFlags_ne _ z n h c hi, State.getReg_setReg_same]

theorem State.getReg_setFlags_setReg_ne (s : State) (z n h c : Option Bool) {i j : Reg} (v : Byte)
    (hi : j ≠ i) (hf : j ≠ .f) : ((s.setReg i v).setFlags z n h c).getReg j = s.getReg j := by
  rw [State.getReg_setFlags_ne _ z n h c hf, State.getReg_setReg_ne s v hi]

theorem flags_handled_incB (s : State) : (handled .incB s).flags =
    ⟨isZero (s.getReg .b + 1), false, incHalfCarry (s.getReg .b), s.flags.c⟩ :=
  State.flags_setFlags_setReg s _ _ _ _ _ (by decide)

theorem flags_handled_decB (s : State) : (handled .decB s).flags =
    ⟨isZero (s.getReg .b - 1), true, decHalfCarry (s.getReg .b), s.flags.c⟩ :=
  State.flags_setFlags_setReg s _ _ _ _ _ (by decide)

/-! ### The obligations of 42_inc_dec.md -/

/-- Settles O30: B and F by the cell and flag laws of the handler, the rest by its frame. -/
theorem decBCountsDownAndSetsFlags : Obligations.DecBCountsDownAndSetsFlags := by
  refine ⟨rfl, rfl, fun s => ⟨_, exec_eq s .decB, ?_, ?_, ?_, fun x hb hf => ?_, ?_⟩⟩
  · exact State.getReg_setFlags_setReg_same s _ _ _ _ (i := .b) _ (by decide)
  · rw [State.flags_advancePc, flags_handled_decB, isZero_sub_one, decHalfCarry_eq_decide]
    rfl
  · exact State.getReg_f_setFlags_low _ _ _ _ _
  · exact State.getReg_setFlags_setReg_ne s _ _ _ _ _ hb hf
  · obtain ⟨-, hsp, hfault⟩ := handled_frame s .decB
    exact ⟨hsp, rfl, hfault⟩

/-- Settles O34: each handler's H is the nibble test on the old B. -/
theorem halfCarryComesFromTheOldLowNibble : Obligations.HalfCarryComesFromTheOldLowNibble := by
  refine fun s => ⟨⟨_, exec_eq s .incB, ?_⟩, ⟨_, exec_eq s .decB, ?_⟩⟩
  · rw [State.flags_advancePc, flags_handled_incB]
    exact incHalfCarry_iff s.r.b
  · rw [State.flags_advancePc, flags_handled_decB]
    exact decHalfCarry_iff s.r.b

end Sys2Proof.Machine

/-!
PROOFS. 50_interfaces.md, the rules: DIAG_TRIGGER reaches only the reply of a step move, so the session a move leads to depends on
the configuration through LOAD_BASE alone.
-/

namespace Sys2Proof.Machine

/-! ### What one move, and a sequence of moves, reads of the configuration (rules R111 and R117) -/

/-- A move other than a step, reply included, reads nothing of the configuration but LOAD_BASE. -/
theorem hostMove_eq_of_ne_step {cfg cfg' : Config} (hbase : cfg.loadBase = cfg'.loadBase) (session : Session)
    {move : HostMove} (hmove : move ≠ .step) : hostMove cfg session move = hostMove cfg' session move := by
  cases move with
  | step => exact absurd rfl hmove
  | romLoad image => cases session <;> simp only [hostMove, romLoad, hbase]
  | powerOn => cases session <;> rfl
  | stop => cases session <;> rfl
  | endSession dump => cases session <;> rfl

/-- A step move leads to a session exactly when that session is the running core one step on. -/
theorem hostMove_step_eq_next_iff (cfg : Config) (session session' : Session) :
    (∃ reply, hostMove cfg session .step = .next (session', reply)) ↔
      ∃ s t, session = .running s ∧ step s = .next t ∧ session' = .running t := by
  cases session with
  | running s =>
    cases hstep : step s with
    | next t => simp [hostMove, hstep, eq_comm]
    | fault x => simp [hostMove, hstep]
    | refused x => simp [hostMove, hstep]
  | off => simp [hostMove]
  | poweredOn s => simp [hostMove]
  | halted s => simp [hostMove]
  | ended => simp [hostMove]

theorem hostMove_eq_next_congr {cfg cfg' : Config} (hbase : cfg.loadBase = cfg'.loadBase) (session session' : Session)
    (move : HostMove) : (∃ reply, hostMove cfg session move = .next (session', reply)) ↔
      ∃ reply, hostMove cfg' session move = .next (session', reply) := by
  by_cases hmove : move = .step
  · rw [hmove, hostMove_step_eq_next_iff, hostMove_step_eq_next_iff]
  · rw [hostMove_eq_of_ne_step hbase session hmove]

/-- A sequence leads to a session through the session its first move leads to. -/
theorem hostMoves_cons_eq_next_iff (cfg : Config) (session final : Session) (move : HostMove) (rest : List HostMove) :
    (∃ replies, hostMoves cfg session (move :: rest) = .next (final, replies)) ↔
      ∃ session', (∃ reply, hostMove cfg session move = .next (session', reply)) ∧
        ∃ replies, hostMoves cfg session' rest = .next (final, replies) := by
  rw [hostMoves]
  cases hostMove cfg session move with
  | next p =>
    obtain ⟨session', reply⟩ := p
    cases hrest : hostMoves cfg session' rest with
    | next q => simp [hrest, Prod.ext_iff]
    | fault x => simp [hrest]
    | refused x => simp [hrest]
  | fault x => simp
  | refused x => simp

theorem hostMoves_eq_next_congr {cfg cfg' : Config} (hbase : cfg.loadBase = cfg'.loadBase) (final : Session)
    (moves : List HostMove) (session : Session) : (∃ replies, hostMoves cfg session moves = .next (final, replies)) ↔
      ∃ replies, hostMoves cfg' session moves = .next (final, replies) := by
  induction moves generalizing session with
  | nil => rfl
  | cons move rest ih => simp only [hostMoves_cons_eq_next_iff, hostMove_eq_next_congr hbase, ih]

/-! ### The obligation of 50_interfaces.md -/

/-- Settles O53: the two configurations have the same LOAD_BASE. -/
theorem diagnosticHookIsPassive : Obligations.DiagnosticHookIsPassive :=
  fun base trigger session final moves =>
    hostMoves_eq_next_congr (cfg := ⟨base, some trigger⟩) (cfg' := ⟨base, none⟩) rfl final moves session

end Sys2Proof.Machine

/-!
PROOFS. 30_encoding.md: the byte-sequence decoder inverts the encoder, and the other bytes give the unrecognized verdict.
-/

namespace Sys2Proof

/-! ### The byte-sequence decoder on what the encoder emits (rules R63, R71 and R75) -/

/-- Rule R75: the bytes an instruction emits decode to it, with whatever follows left over. -/
theorem decode_encode_append (i : Instr) (rest : List Byte) : decode (encode i ++ rest) = .insn i rest := by
  simp only [encode, List.cons_append, decode, decodeOpcode_byte]
  cases i with
  | ldBCnn nn => exact congrArg (fun v => Decoded.insn (.ldBCnn v) rest) (Machine.composeWord_low_high nn)
  | ldnnSP nn => exact congrArg (fun v => Decoded.insn (.ldnnSP v) rest) (Machine.composeWord_low_high nn)
  | nop | ldBCA | incBC | incB | decB | ldBN n | rlca => rfl

theorem decodeOpcode_eq_unrecognized_iff_le {op : Byte} : decodeOpcode op = .unrecognized op ↔ 0x09 ≤ op.toNat :=
  (opcodeByteSelectsItsTableRow op).2

/-- Rule R73: the bytes after an unrecognized one are not examined. -/
theorem decode_cons_of_unrecognized {op : Byte} (rest : List Byte) (h : decodeOpcode op = .unrecognized op) :
    decode (op :: rest) = .unrecognized op := by
  rw [decode, h]

/-! ### The obligations of 30_encoding.md -/

/-- Settles O1: what is decoded was encoded, and what is encoded is decoded. -/
theorem decodeIsExactlyInverseToEncode : Obligations.DecodeIsExactlyInverseToEncode :=
  fun _ i rest => ⟨eq_encode_append_of_decode, fun h => h ▸ decode_encode_append i rest⟩

/-- Settles O4: the table's rows end below 0x09. -/
theorem unrecognizedByteIsRejectedWhateverFollows : Obligations.UnrecognizedByteIsRejectedWhateverFollows :=
  fun _ rest h => decode_cons_of_unrecognized rest (decodeOpcode_eq_unrecognized_iff_le.mpr h)

/-- Settles O5: each sequence is an encoding with nothing after it. -/
theorem writtenOutWordsDecode : Obligations.WrittenOutWordsDecode :=
  ⟨decode_encode_append .nop [], decode_encode_append (.ldBCnn 0x1234) [], decode_encode_append .ldBCA [],
    decode_encode_append .incBC [], decode_encode_append .incB [], decode_encode_append .decB [],
    decode_encode_append (.ldBN 0x7F) [], decode_encode_append .rlca [], decode_encode_append (.ldnnSP 0xC100) [],
    decode_encode_append (.ldBCnn 0xFF09) [], decode_encode_append (.ldBN 0xCB) []⟩

end Sys2Proof

/-!
PROOFS. 10_state.md sections 1, 2 and 9: the raw port by index, the letters of the pairs, and power-on.
-/

namespace Sys2Proof.Machine

/-! ### Cell indices (rules R11 and R14) -/

@[simp] theorem Reg.ofIndex_index (x : Reg) : Reg.ofIndex x.index = some x := by
  cases x <;> rfl

theorem Reg.index_lt (x : Reg) : x.index < 8 := by
  cases x <;> decide

theorem Reg.ofIndex_eq_none {k : Nat} (hk : 8 ≤ k) : Reg.ofIndex k = none :=
  List.find?_eq_none.mpr fun x _ => by
    have := x.index_lt
    simp only [beq_iff_eq]
    omega

/-! ### The two cells of a raw pair operation (rule R19) -/

theorem portPair_self (x : Reg) : portPair x.index x.index = .refused (.equalPairIndices x.index) := by
  simp [portPair]

theorem portPair_of_ne {x y : Reg} (h : x ≠ y) : portPair x.index y.index = .next (x, y) := by
  simp [portPair, h]

theorem portPair_bad_low {k : Nat} (j : Nat) (hk : 8 ≤ k) : portPair k j = .refused (.invalidRegisterIndex k) := by
  rw [portPair, Reg.ofIndex_eq_none hk]

theorem portPair_bad_high (x : Reg) {k : Nat} (hk : 8 ≤ k) :
    portPair x.index k = .refused (.invalidRegisterIndex k) := by
  rw [portPair, Reg.ofIndex_eq_none hk, Reg.ofIndex_index]

/-! ### The obligations -/

/-- Settles O11: the single-cell operations by the index, the pair operations by what `portPair` answers. -/
theorem registerPortRefusesBadIndices : Obligations.RegisterPortRefusesBadIndices := by
  refine ⟨fun x v s => ?_, rfl, fun k v s hk => ?_, fun x v s => ?_, fun x y v s hxy => ?_, fun x k j v s hk => ?_⟩
  · simp [portGet, portSet]
  · simp [portGet, portSet, Reg.ofIndex_eq_none hk]
  · simp [portGetPair, portSetPair, portPair_self]
  · simp [portGetPair, portSetPair, portPair_of_ne hxy]
  · simp [portGetPair, portSetPair, portPair_bad_low j hk, portPair_bad_high x hk]

/-- Settles O55: reading a pair composes its cells and writing one splits the value, by definition of the four pairs. -/
theorem firstLetterOfAPairIsItsHighByte : Obligations.FirstLetterOfAPairIsItsHighByte :=
  ⟨⟨rfl, rfl, rfl, rfl, rfl, rfl, rfl, rfl⟩, fun _ _ => ⟨⟨rfl, rfl, rfl, rfl⟩, rfl, rfl, rfl, rfl⟩⟩

@[simp] theorem State.getReg_reset (i : Reg) : State.reset.getReg i = 0 := by
  cases i <;> rfl

/-- Settles O6: memory lists nothing, so every address reads as the unlisted byte. -/
theorem powerOnStateIsAllZero : Obligations.PowerOnStateIsAllZero :=
  ⟨State.getReg_reset, rfl, rfl, fun _ => rfl, rfl⟩

end Sys2Proof.Machine

/-!
PROOFS. 20_memory.md sections 1 to 3: a word write, the canonical form as a function of what is read, and loads.
-/

namespace Sys2Proof.Machine

/-! ### A word write (rule R46) -/

theorem State.readByte_writeWord_low (s : State) (a v : Word) : (s.writeWord a v).readByte a = lowByte v := by
  have hne : a ≠ a + 1 := by bv_omega
  rw [State.writeWord, State.readByte_writeByte_ne _ _ hne, State.readByte_writeByte_same]

theorem State.readByte_writeWord_high (s : State) (a v : Word) : (s.writeWord a v).readByte (a + 1) = highByte v :=
  State.readByte_writeByte_same _ (a + 1) (highByte v)

theorem State.readByte_writeWord_ne (s : State) {a b : Word} (v : Word) (hlow : b ≠ a) (hhigh : b ≠ a + 1) :
    (s.writeWord a v).readByte b = s.readByte b := by
  rw [State.writeWord, State.readByte_writeByte_ne _ _ hhigh, State.readByte_writeByte_ne _ _ hlow]

theorem State.readWord_writeWord_same (s : State) (a v : Word) : (s.writeWord a v).readWord a = v := by
  rw [State.readWord, State.readByte_writeWord_low, State.readByte_writeWord_high, composeWord_low_high]

/-! ### The canonical form: the entries are what is read (log 6) -/

theorem Memory.lookup_of_forall_ne {m : Memory} {k : Nat} (h : ∀ c ∈ m, c.1 ≠ k) : m.lookup k = unlistedByte := by
  induction m with
  | nil => rfl
  | cons c rest ih =>
    rw [List.forall_mem_cons] at h
    rw [Memory.lookup, if_neg h.1, ih h.2]

/-- With rising addresses the entry for a key is the first one for it. -/
theorem Memory.lookup_of_mem {m : Memory} (hm : m.Pairwise (fun x y => x.1 < y.1)) {c : Host.Cell} (hc : c ∈ m) :
    m.lookup c.1 = c.2 := by
  induction m with
  | nil => cases hc
  | cons d rest ih =>
    rw [List.pairwise_cons] at hm
    rw [Memory.lookup]
    rcases List.mem_cons.mp hc with rfl | hc
    · exact if_pos rfl
    · rw [if_neg (hm.1 c hc).ne, ih hm.2 hc]

/-- The entries of a canonical memory are the addresses that do not read as the unlisted byte, with what they read as. -/
theorem Memory.mem_iff_of_wf {m : Memory} (hm : m.wf) (c : Host.Cell) :
    c ∈ m ↔ c.1 < 65536 ∧ c.2 ≠ unlistedByte ∧ m.readByte (BitVec.ofNat 16 c.1) = c.2 := by
  obtain ⟨hsorted, hcells⟩ := hm
  have hkey (h : c.1 < 65536) : (BitVec.ofNat 16 c.1).toNat = c.1 := by
    rw [BitVec.toNat_ofNat]; omega
  constructor
  · intro hc
    obtain ⟨hlt, hne⟩ := hcells c hc
    refine ⟨hlt, hne, ?_⟩
    rw [Memory.readByte, hkey hlt, Memory.lookup_of_mem hsorted hc]
  · rintro ⟨hlt, hne, hread⟩
    rw [Memory.readByte, hkey hlt] at hread
    by_contra hc
    refine hne (hread ▸ Memory.lookup_of_forall_ne fun d hd hdc => hc ?_)
    have hd2 : d.2 = c.2 := by rw [← Memory.lookup_of_mem hsorted hd, hdc, hread]
    rwa [← Prod.ext hdc hd2]

theorem Memory.nodup_of_wf {m : Memory} (hm : m.wf) : m.Nodup :=
  hm.1.imp fun hlt heq => hlt.ne (congrArg Prod.fst heq)

/-! ### A load (rule R47) -/

theorem load_of_fits {start : Word} {bytes : List Byte} (s : State) (h : start.toNat + bytes.length ≤ 65536) :
    load start bytes s = .next { s with mem := s.mem.storeAll start.toNat bytes } :=
  if_pos (decide_eq_true h)

theorem load_of_too_long {start : Word} {bytes : List Byte} (s : State) (h : 65536 < start.toNat + bytes.length) :
    load start bytes s = .fault .loadOutOfBounds :=
  if_neg fun hfits => absurd (of_decide_eq_true hfits) (by omega)

theorem Memory.readByte_storeAll_inside (m : Memory) {start : Word} {bytes : List Byte}
    (hfits : start.toNat + bytes.length ≤ 65536) {k : Nat} (hk : k < bytes.length) :
    (m.storeAll start.toNat bytes).readByte (start + BitVec.ofNat 16 k) = bytes[k] := by
  have haddr : (start + BitVec.ofNat 16 k).toNat = start.toNat + k := by
    rw [BitVec.toNat_add, BitVec.toNat_ofNat]; omega
  rw [Memory.readByte, haddr, Memory.lookup_storeAll_inside hk]

theorem Memory.readByte_storeAll_outside (m : Memory) {start a : Word} {bytes : List Byte}
    (ha : a.toNat < start.toNat ∨ start.toNat + bytes.length ≤ a.toNat) :
    (m.storeAll start.toNat bytes).readByte a = m.readByte a :=
  Memory.lookup_storeAll_outside ha

/-! ### The obligations of 20_memory.md -/

/-- Settles O17: two byte writes at different addresses. -/
theorem wordWriteIsTwoByteWritesLowFirst : Obligations.WordWriteIsTwoByteWritesLowFirst :=
  fun s a v => ⟨s.readByte_writeWord_low a v, s.readByte_writeWord_high a v, s.readWord_writeWord_same a v,
    fun _ hlow hhigh => s.readByte_writeWord_ne v hlow hhigh, rfl, rfl, rfl, rfl⟩

/-- Settles O18: the entries are fixed by the reads, and their order by the addresses. -/
theorem canonicalMemoriesThatReadAlikeAreEqual : Obligations.CanonicalMemoriesThatReadAlikeAreEqual := by
  intro m m' hm hm' hread
  have hperm : m.Perm m' := (List.perm_ext_iff_of_nodup (Memory.nodup_of_wf hm) (Memory.nodup_of_wf hm')).mpr fun c => by
    rw [Memory.mem_iff_of_wf hm, Memory.mem_iff_of_wf hm', hread]
  exact hperm.eq_of_pairwise (fun _ _ _ _ hlt hgt => absurd hgt hlt.not_gt) hm.1 hm'.1

/-- Settles O19: the bytes placed, the addresses outside them, and the load that does not fit. -/
theorem loadPlacesTheBytesOrFails : Obligations.LoadPlacesTheBytesOrFails :=
  fun _ _ s => ⟨fun hfits => ⟨_, load_of_fits s hfits,
    fun _ hk => Memory.readByte_storeAll_inside s.mem hfits hk,
    fun _ ha => Memory.readByte_storeAll_outside s.mem ha, rfl, rfl, rfl, rfl⟩, load_of_too_long s⟩

end Sys2Proof.Machine

/-!
PROOFS. 10_state.md section 2 and 20_memory.md section 6, the rules: what a handler writes, cell by cell and byte by byte, and what
it reads of F, D, E, H and L.
-/

namespace Sys2Proof.Machine

/-! ### The cells a handler writes and does not read (rules R20 and R30) -/

/-- A handler writes no cell outside its entry of the access table. -/
theorem getReg_handled_of_not_mem {i : Instr} (s : State) {x : Reg} (h : x ∉ registerWrites i) :
    (handled i s).getReg x = s.getReg x := by
  have hpair {j k : Reg} (h : x ∉ [j, k]) : x ≠ j ∧ x ≠ k := not_or.mp (mt List.mem_pair.mpr h)
  cases i with
  | nop | ldBCA | ldnnSP nn => rfl
  | ldBCnn nn => exact State.getReg_setPair_ne s nn (hpair h).2 (hpair h).1
  | incBC => exact State.getReg_setPair_ne s _ (hpair h).2 (hpair h).1
  | incB | decB | rlca => exact State.getReg_setFlags_setReg_ne s _ _ _ _ _ (hpair h).1 (hpair h).2
  | ldBN n => exact State.getReg_setReg_ne s n (mt List.mem_singleton.mpr h)

/-- What F holds before an instruction shows in no cell but F after it (rule R30). -/
theorem handled_setReg_f (i : Instr) (s : State) (v : Byte) :
    ∃ w, handled i (s.setReg .f v) = (handled i s).setReg .f w := by
  cases i <;> exact ⟨_, rfl⟩

/-- No instruction names D, E, H or L (rule R20). -/
theorem handled_withDEHL (i : Instr) (s : State) (d e h l : Byte) :
    handled i (s.withDEHL d e h l) = (handled i s).withDEHL d e h l := by
  cases i <;> rfl

theorem handled_dehl (i : Instr) (s : State) : (handled i s).r.d = s.r.d ∧ (handled i s).r.e = s.r.e ∧
    (handled i s).r.h = s.r.h ∧ (handled i s).r.l = s.r.l := by
  cases i <;> exact ⟨rfl, rfl, rfl, rfl⟩

/-! ### A, F and the carry (rules R31, R37 and R108) -/

theorem State.flags_eq_of_getReg_f {s t : State} (h : s.getReg .f = t.getReg .f) : s.flags = t.flags :=
  congrArg decodeFlags h

theorem a_handled (i : Instr) (s : State) :
    (handled i s).r.a = if i = .rlca then rotateLeftCircular s.r.a else s.r.a := by
  cases i with
  | rlca => exact State.getReg_setFlags_setReg_same s _ _ _ _ (i := .a) _ (by decide)
  | _ => exact getReg_handled_of_not_mem s (x := .a) (by simp [registerWrites])

theorem flags_c_handled (i : Instr) (s : State) : (handled i s).flags.c =
    if i = .rlca then rotatedOut s.r.a else s.flags.c := by
  cases i with
  | incB => rw [flags_handled_incB]; rfl
  | decB => rw [flags_handled_decB]; rfl
  | rlca => exact congrArg Flags.c (State.flags_setFlags_setReg s _ _ _ _ _ (by decide))
  | _ => exact congrArg Flags.c (State.flags_eq_of_getReg_f (getReg_handled_of_not_mem s (by simp [registerWrites])))

/-- Bits 3 to 0 of F stay clear (rule R31). -/
theorem getReg_f_handled_low (i : Instr) {s : State} (h : (s.getReg .f).extractLsb' 0 4 = 0) :
    ((handled i s).getReg .f).extractLsb' 0 4 = 0 := by
  obtain hkept | ⟨z, n, hc, c, hset⟩ := getReg_f_handled i s
  · rw [hkept, h]
  · rw [hset, State.getReg_f_setFlags_low]

/-! ### The bytes a handler writes (20_memory.md rule R49) -/

/-- A handler's effect on memory is its data writes in order. -/
theorem handled_mem (i : Instr) (s : State) :
    (handled i s).mem = (dataWrites i s).foldl (fun m w => m.writeByte w.1 w.2) s.mem := by
  cases i <;> rfl

theorem Memory.foldl_writeByte_wf (ws : List (Word × Byte)) {m : Memory} (hm : m.wf) :
    (ws.foldl (fun m w => m.writeByte w.1 w.2) m).wf := by
  induction ws generalizing m with
  | nil => exact hm
  | cons w ws ih => exact ih (Memory.writeByte_wf hm w.1)

end Sys2Proof.Machine

/-!
PROOFS. 40_step_cycle.md, the rules: what the fetch finds at pc, and a step in its three cases.
-/

namespace Sys2Proof.Machine

/-! ### The fetch (rules R82 to R84) -/

/-- A recognized opcode byte is its row's, and the instruction has the operands at pc. -/
theorem fetch_eq_insn_iff {s : State} {i : Instr} : fetch s = .insn i ↔
    s.readByte s.pc = i.opcode.byte ∧ i = i.opcode.instr (immediate8 s) (immediate16 s) := by
  constructor
  · intro h
    unfold fetch at h
    split at h
    next o ho =>
      obtain rfl := Fetched.insn.inj h
      rw [Opcode.instr_opcode]
      exact ⟨decodeOpcode_recognized ho, rfl⟩
    next => cases h
  · rintro ⟨hop, hi⟩
    rw [fetch, hop, decodeOpcode_byte]
    exact congrArg Fetched.insn hi.symm

theorem fetch_eq_unrecognized_iff {s : State} {op : Byte} : fetch s = .unrecognized op ↔
    op = s.readByte s.pc ∧ 0x09 ≤ (s.readByte s.pc).toNat := by
  rw [← decodeOpcode_eq_unrecognized_iff_le, fetch]
  cases hv : decodeOpcode (s.readByte s.pc) with
  | recognized o => simp
  | unrecognized v =>
    rw [decodeOpcode_unrecognized hv]
    simp [eq_comm]

/-- The fetch finds an instruction exactly where the byte at pc is in the table. -/
theorem exists_fetch_eq_insn_iff {s : State} : (∃ i, fetch s = .insn i) ↔ (s.readByte s.pc).toNat ≤ 0x08 := by
  cases hf : fetch s with
  | insn i =>
    obtain ⟨hop, -⟩ := fetch_eq_insn_iff.mp hf
    exact iff_of_true ⟨i, rfl⟩ (Nat.le_of_lt_succ (Opcode.exists_byte_eq_iff.mp ⟨_, hop⟩))
  | unrecognized op =>
    obtain ⟨-, hop⟩ := fetch_eq_unrecognized_iff.mp hf
    exact iff_of_false (fun ⟨_, h⟩ => nomatch h) (Nat.not_le_of_lt hop)

/-- The three bytes at pc start with the encoding of the instruction the fetch finds. -/
theorem bytes_at_pc_of_fetch {s : State} {i : Instr} (h : fetch s = .insn i) :
    ∃ rest, [s.readByte s.pc, s.readByte (s.pc + 1), s.readByte (s.pc + 2)] = encode i ++ rest := by
  obtain ⟨hop, hi⟩ := fetch_eq_insn_iff.mp h
  have hpc : s.pc + 2 = s.pc + 1 + 1 := by bv_omega
  rw [hi, encode_instr, hop, hpc]
  cases i.opcode.format with
  | op => exact ⟨_, rfl⟩
  | opN => exact ⟨_, rfl⟩
  | opNN => exact ⟨[], by simp [Format.operandBytes, immediate16, State.readWord]⟩

/-! ### The step in its three cases (rule R80) -/

theorem step_of_stopped {s : State} (h : s.fault.isSome = true) : step s = .next s := by
  obtain ⟨x, hx⟩ := Option.isSome_iff_exists.mp h
  rw [step, hx]
  rfl

theorem step_of_unrecognized {s : State} {op : Byte} (hrun : s.fault = none) (h : fetch s = .unrecognized op) :
    step s = .next (takeUnrecognizedOpcode op s) := by
  rw [step, hrun, h]
  rfl

theorem step_eq_exec {s : State} {i : Instr} (hrun : s.fault = none) (h : fetch s = .insn i) :
    step s = exec i s := by
  rw [step, hrun, h]

theorem step_of_insn {s : State} {i : Instr} (hrun : s.fault = none) (h : fetch s = .insn i) :
    step s = .next (advancePc i.length (handled i s)) := by
  rw [step_eq_exec hrun h, exec_eq]

/-- Every step answers a next state, and what holds of the next state in the three cases holds of it. -/
theorem exists_step_next {P : State → Prop} (s : State) (hstopped : s.fault.isSome = true → P s)
    (hunrecognized : ∀ op, s.fault = none → fetch s = .unrecognized op → P (takeUnrecognizedOpcode op s))
    (hinsn : ∀ i, s.fault = none → fetch s = .insn i → P (advancePc i.length (handled i s))) :
    ∃ t, step s = .next t ∧ P t := by
  obtain ⟨hf, hstep⟩ | ⟨hrun, op, hop, hstep⟩ | ⟨hrun, i, hi, hstep⟩ := step_cases s
  · exact ⟨s, hstep, hstopped hf⟩
  · exact ⟨_, hstep, hunrecognized op hrun hop⟩
  · exact ⟨_, step_of_insn hrun hi, hinsn i hrun hi⟩

theorem exists_step (s : State) : ∃ t, step s = .next t := by
  obtain ⟨t, hstep, -⟩ := exists_step_next (P := fun _ => True) s (fun _ => trivial) (fun _ _ _ => trivial)
    fun _ _ _ => trivial
  exact ⟨t, hstep⟩

/-! ### The obligations -/

/-- Settles O43: a handler's writes keep the canonical form and the low nibble of F; the other two cases change neither. -/
theorem everyStepKeepsTheMachineInvariant : Obligations.EveryStepKeepsTheMachineInvariant := by
  rintro s ⟨hmem, hF⟩
  refine exists_step_next s (fun _ => ⟨hmem, hF⟩) (fun _ _ _ => ⟨hmem, hF⟩) fun i _ _ => ⟨?_, ?_⟩
  · rw [advancePc_mem, handled_mem]
    exact Memory.foldl_writeByte_wf _ hmem
  · exact getReg_f_handled_low i hF

/-- Settles O45: A and the carry change through RLCA alone, and rotating 0 gives 0 and carries 0 out. -/
theorem everyStepKeepsTheReachableFacts : Obligations.EveryStepKeepsTheReachableFacts := by
  rintro s ⟨hF, hsp, ha, hdehl, hc⟩
  refine exists_step_next s (fun _ => ⟨hF, hsp, ha, hdehl, hc⟩) (fun _ _ _ => ⟨hF, hsp, ha, hdehl, hc⟩)
    fun i _ _ => ⟨getReg_f_handled_low i hF, ?_, ?_, ?_, ?_⟩
  · obtain ⟨-, hsp', -⟩ := handled_frame s i
    exact hsp'.trans hsp
  · rw [advancePc_r, a_handled, ha]
    exact ite_self 0
  · obtain ⟨hd', he', hh', hl'⟩ := handled_dehl i s
    obtain ⟨hd, he, hh, hl⟩ := hdehl
    exact ⟨hd'.trans hd, he'.trans he, hh'.trans hh, hl'.trans hl⟩
  · rw [State.flags_advancePc, flags_c_handled, ha, hc]
    exact ite_self false

end Sys2Proof.Machine

/-!
PROOFS. 40_step_cycle.md, 60_exceptions.md and 70_reset_and_hazards.md: the step, the stopped core, and runs of NOPs.
-/

namespace Sys2Proof.Machine

/-! ### The obligations on one step -/

/-- Settles O20: the bytes at pc decode to the instruction the fetch finds. -/
theorem stepRunsTheDecodedInstruction : Obligations.StepRunsTheDecodedInstruction := by
  intro s i rest hrun hdecode
  have hfetch : fetch s = .insn i := by
    cases hf : fetch s with
    | insn j =>
      obtain ⟨rest', hbytes⟩ := bytes_at_pc_of_fetch hf
      rw [hbytes, decode_encode_append] at hdecode
      rw [(Decoded.insn.inj hdecode).1]
    | unrecognized op =>
      obtain ⟨-, hop⟩ := fetch_eq_unrecognized_iff.mp hf
      cases (unrecognizedByteIsRejectedWhateverFollows _ _ hop).symm.trans hdecode
  obtain ⟨hpc, -, -⟩ := handled_frame s i
  refine ⟨step_eq_exec hrun hfetch, _, exec_eq s i, ?_⟩
  rw [advancePc_pc, hpc]

/-- Settles O21: the fetch gives the unrecognized verdict for the byte at pc. -/
theorem unrecognizedOpcodeSetsTheLatchOnly : Obligations.UnrecognizedOpcodeSetsTheLatchOnly :=
  fun _ hrun hop => step_of_unrecognized hrun (fetch_eq_unrecognized_iff.mpr ⟨rfl, hop⟩)

/-- Settles O22: an instruction keeps the latch, and the exception sets it. -/
theorem nothingElseSetsTheLatch : Obligations.NothingElseSetsTheLatch := by
  intro s hrun
  refine exists_step_next s (fun hstopped => ?_) (fun op _ hop => ?_) fun i _ hi => ?_
  · simp [hrun] at hstopped
  · obtain ⟨-, hge⟩ := fetch_eq_unrecognized_iff.mp hop
    simp only [takeUnrecognizedOpcode_fault, reduceCtorEq, false_iff]
    omega
  · obtain ⟨-, -, hfault⟩ := handled_frame s i
    rw [advancePc_fault, hfault]
    exact iff_of_true hrun (exists_fetch_eq_insn_iff.mp ⟨i, hi⟩)

/-- Settles O24: no handler writes sp, and neither other case of a step does. -/
theorem advancementTouchesPcAloneAndNoStepTouchesSp : Obligations.AdvancementTouchesPcAloneAndNoStepTouchesSp := by
  refine ⟨fun k s => ⟨rfl, rfl, rfl, rfl, rfl⟩, fun s => ?_⟩
  refine exists_step_next s (fun _ => rfl) (fun _ _ _ => rfl) fun i _ _ => ?_
  obtain ⟨-, hsp, -⟩ := handled_frame s i
  exact hsp

/-! ### The obligations on runs -/

/-- Settles O23, by induction on the number of steps. -/
theorem stoppedCoreStaysAsItIs : Obligations.StoppedCoreStaysAsItIs := by
  intro s k hstopped
  induction k with
  | zero => rfl
  | succ k ih => rw [core_run_succ k (step_of_stopped hstopped), ih]

/-- Over a zero byte at pc a running core executes a NOP. -/
theorem step_of_zero_byte {s : State} (hrun : s.fault = none) (hzero : s.readByte s.pc = 0) :
    step s = .next (advancePc 1 s) :=
  step_of_insn (i := .nop) hrun (fetch_eq_insn_iff.mpr ⟨hzero, rfl⟩)

theorem advancePc_zero (s : State) : advancePc 0 s = s :=
  congrArg (fun pc => { s with pc := pc }) (BitVec.add_zero s.pc)

theorem advancePc_advancePc (j k : Nat) (s : State) : advancePc k (advancePc j s) = advancePc (j + k) s := by
  simp only [advancePc, BitVec.ofNat_add, BitVec.add_assoc]

/-- Settles O49, by induction on the number of steps: a NOP leaves memory and the latch as they are. -/
theorem zeroMemoryRunsAsNops : Obligations.ZeroMemoryRunsAsNops := by
  intro s k hrun hzero
  change _ = Host.Outcome.next (advancePc k s)
  induction k generalizing s with
  | zero => rw [advancePc_zero]; rfl
  | succ k ih =>
    rw [core_run_succ k (step_of_zero_byte hrun (hzero s.pc)), ih (advancePc 1 s) hrun hzero, advancePc_advancePc,
      Nat.add_comm]

end Sys2Proof.Machine

/-!
PROOFS. 41_loads_stores.md, 42_inc_dec.md and 43_rotate.md: the instructions one by one.
-/

namespace Sys2Proof.Machine

/-! ### Z and H of an increment (rules R101 and R103) -/

theorem isZero_add_one (old : Byte) : isZero (old + 1) = decide (old = 0xFF) := by
  rw [Bool.eq_iff_iff, isZero, beq_iff_eq, decide_eq_true_iff]
  exact add_eq_zero_iff_eq_neg

theorem incHalfCarry_eq_decide (old : Byte) : incHalfCarry old = decide (old.toNat % 16 = 15) := by
  rw [Bool.eq_iff_iff, incHalfCarry_iff, decide_eq_true_iff, ← toNat_lowNibble]
  exact BitVec.toNat_inj.symm

/-- Adding 1 to the high byte of a word adds 0x0100 to the word. -/
theorem composeWord_high_add_one (lo hi : Byte) : composeWord lo (hi + 1) = composeWord lo hi + 0x0100 := by
  have hlo := lo.isLt
  refine BitVec.eq_of_toNat_eq ?_
  simp only [BitVec.toNat_add, toNat_composeWord, BitVec.ofNat_eq_ofNat, BitVec.toNat_ofNat]
  omega

/-- The carry alone is bit 4 of F (rule R23). -/
theorem encodeFlags_carry (c : Bool) : encodeFlags ⟨false, false, false, c⟩ = if c then 0x10 else 0x00 := by
  cases c <;> rfl

/-! ### One rotation, by value and by bits (rule R108) -/

theorem toNat_rotateLeftCircular (v : Byte) : (rotateLeftCircular v).toNat = 2 * v.toNat % 256 + v.toNat / 128 := by
  have hv := v.isLt
  have hbit : (v.extractLsb' 7 1).toNat = v.toNat / 128 := by
    rw [BitVec.extractLsb'_toNat, Nat.shiftRight_eq_div_pow]; omega
  have hlow : (v.extractLsb' 0 7).toNat = v.toNat % 128 := by
    rw [BitVec.extractLsb'_toNat, Nat.shiftRight_zero]
  rw [rotateLeftCircular, BitVec.toNat_append, ← Nat.shiftLeft_add_eq_or_of_lt (BitVec.isLt _), Nat.shiftLeft_eq,
    hlow, hbit]
  omega

theorem getLsbD_rotateLeftCircular (v : Byte) {k : Nat} (hk : k < 8) :
    (rotateLeftCircular v).getLsbD k = v.getLsbD ((k + 7) % 8) := by
  rw [rotateLeftCircular, BitVec.getLsbD_append]
  cases k with
  | zero => simp
  | succ k =>
    have hmod : (k + 1 + 7) % 8 = k := by omega
    have hk7 : k < 7 := by omega
    simp [hmod, hk7]

theorem onesCount_rotateLeftCircular (v : Byte) : onesCount (rotateLeftCircular v) = onesCount v := by
  have hperm : ((List.range 8).map fun k => (k + 7) % 8).Perm (List.range 8) := by decide
  simp only [onesCount, ← List.countP_eq_length_filter]
  rw [← hperm.countP_eq v.getLsbD, List.countP_map]
  refine List.countP_congr fun k hk => ?_
  rw [getLsbD_rotateLeftCircular v (List.mem_range.mp hk)]
  rfl

/-! ### The obligations, one instruction each -/

/-- Settles O25 (rule R92). -/
theorem nopOnlyAdvancesPc : Obligations.NopOnlyAdvancesPc :=
  exec_nop

/-- Settles O26 (rule R96). -/
theorem ldBCnnLoadsBothCells : Obligations.LdBCnnLoadsBothCells :=
  fun nn s => exec_ldBCnn s nn

/-- Settles O31 (rule R98). -/
theorem ldBNLoadsTheImmediate : Obligations.LdBNLoadsTheImmediate :=
  fun n s => exec_ldBN s n

/-- Settles O27: one byte write, which leaves the registers alone. -/
theorem ldBCAStoresTheAccumulatorAtBC : Obligations.LdBCAStoresTheAccumulatorAtBC :=
  fun s => ⟨_, exec_ldBCA s, rfl, State.readByte_writeByte_same s _ s.r.a,
    fun _ ha => State.readByte_writeByte_ne s s.r.a ha, rfl, rfl, rfl, rfl⟩

/-- Settles O33: one word write, which leaves the registers alone. -/
theorem ldnnSPStoresTheStackPointer : Obligations.LdnnSPStoresTheStackPointer :=
  fun nn s => ⟨_, exec_ldnnSP s nn, s.readByte_writeWord_low nn s.sp, s.readByte_writeWord_high nn s.sp, rfl,
    fun _ hlow hhigh => s.readByte_writeWord_ne s.sp hlow hhigh, rfl, rfl, rfl, rfl⟩

/-- Settles O28: the value of BC before and after, as that of a composed word. -/
theorem incBCAddsOneAndWritesNoFlag : Obligations.IncBCAddsOneAndWritesNoFlag := by
  refine fun s => ⟨_, exec_eq s .incBC, ?_, rfl, fun x hb hc => ?_, rfl, rfl, rfl, rfl⟩
  · have hBC : composeWord (handled .incBC s).r.c (handled .incBC s).r.b = composeWord s.r.c s.r.b + 1 :=
      s.r.getPair_setPair (lo := .c) (hi := .b) (s.getPair .bc + 1) (by decide)
    have hvalue := congrArg BitVec.toNat hBC
    rw [BitVec.toNat_add, toNat_composeWord, toNat_composeWord] at hvalue
    rw [advancePc_r, add_comm, hvalue, add_comm (256 * _)]
    rfl
  · exact State.getReg_setPair_ne s _ hc hb

/-- Settles O29: B and F by the cell and flag laws of the handler, BC as a composed word. -/
theorem incBCountsUpAndSetsFlags : Obligations.IncBCountsUpAndSetsFlags := by
  refine fun s => ⟨_, exec_eq s .incB, ?_, ?_, ?_, ?_, fun x hb hf => ?_, rfl, rfl, rfl, rfl⟩
  · exact State.getReg_setFlags_setReg_same s _ _ _ _ (i := .b) _ (by decide)
  · rw [State.flags_advancePc, flags_handled_incB, isZero_add_one, incHalfCarry_eq_decide]
    rfl
  · exact State.getReg_f_setFlags_low _ _ _ _ _
  · exact composeWord_high_add_one s.r.c s.r.b
  · exact State.getReg_setFlags_setReg_ne s _ _ _ _ _ hb hf

/-- Settles O32: A by the value and the bits of a rotation, F by the one flag that is computed. -/
theorem rlcaRotatesTheAccumulator : Obligations.RlcaRotatesTheAccumulator := by
  intro s
  have ha : (handled .rlca s).r.a = rotateLeftCircular s.r.a := a_handled .rlca s
  refine ⟨_, exec_eq s .rlca, fun k hk => ?_, ?_, ?_, fun x hxa hxf => ?_, rfl, rfl, rfl, rfl⟩
  · rw [advancePc_r, ha, getLsbD_rotateLeftCircular _ hk]
  · rw [advancePc_r, ha, toNat_rotateLeftCircular]
  · exact encodeFlags_carry (rotatedOut s.r.a)
  · exact State.getReg_setFlags_setReg_ne s _ _ _ _ _ hxa hxf

/-- Settles O35, from the laws of the two instructions. -/
theorem incThenDecRestoresBNotF : Obligations.IncThenDecRestoresBNotF := by
  intro s
  obtain ⟨t, hinc, hbt, hflagst, -⟩ := incBCountsUpAndSetsFlags s
  obtain ⟨-, -, hdecB⟩ := decBCountsDownAndSetsFlags
  obtain ⟨u, hdec, hbu, hflagsu, -⟩ := hdecB t
  refine ⟨t, u, hinc, hdec, ?_, ?_⟩
  · rw [hbu, hbt, BitVec.add_sub_cancel]
  · have hzero : s.r.b + 1 = 0x01 ↔ s.r.b = 0 := add_eq_right
    have hnibble : (s.r.b + 1).toNat % 16 = 0 ↔ s.r.b.toNat % 16 = 15 := by bv_omega
    rw [hflagsu, hflagst, hbt]
    simp only [hzero, hnibble]

/-! ### The rotation repeated -/

/-- A rotation read at the place a bit moves to. -/
theorem getLsbD_iterate_rotateLeftCircular (k : Nat) (v : Byte) {j : Nat} (hj : j < 8) :
    (rotateLeftCircular^[k] v).getLsbD ((j + k) % 8) = v.getLsbD j := by
  induction k with
  | zero => rw [Nat.add_zero, Nat.mod_eq_of_lt hj]; rfl
  | succ k ih =>
    have hplace : ((j + (k + 1)) % 8 + 7) % 8 = (j + k) % 8 := by omega
    rw [Function.iterate_succ_apply', getLsbD_rotateLeftCircular _ (Nat.mod_lt _ (by decide)), hplace, ih]

theorem onesCount_iterate_rotateLeftCircular (k : Nat) (v : Byte) : onesCount (rotateLeftCircular^[k] v) = onesCount v := by
  induction k with
  | zero => rfl
  | succ k ih => rw [Function.iterate_succ_apply', onesCount_rotateLeftCircular, ih]

/-- What `k` RLCAs leave in A, and in the carry if there is a last one. -/
theorem execTimes_rlca (k : Nat) (s : State) : ∃ t, execTimes .rlca k s = .next t ∧
    t.r.a = rotateLeftCircular^[k] s.r.a ∧ ∀ j, k = j + 1 → t.flags.c = rotatedOut (rotateLeftCircular^[j] s.r.a) := by
  induction k generalizing s with
  | zero => exact ⟨s, rfl, rfl, fun _ h => nomatch h⟩
  | succ k ih =>
    have ha : (handled .rlca s).r.a = rotateLeftCircular s.r.a := a_handled .rlca s
    have hc : (handled .rlca s).flags.c = rotatedOut s.r.a := flags_c_handled .rlca s
    obtain ⟨t, hrun, hat, hct⟩ := ih (advancePc 1 (handled .rlca s))
    rw [advancePc_r, ha] at hat hct
    refine ⟨t, ?_, hat, fun j hj => ?_⟩
    · rw [execTimes, exec_eq]
      exact hrun
    · obtain rfl := Nat.succ.inj hj
      cases k with
      | zero =>
        obtain rfl := Host.Outcome.next.inj hrun
        exact hc
      | succ k => exact hct k rfl

/-- Settles O36: A is the iterated rotation; after `k` of them bit `8 - k` has just left bit 7. -/
theorem repeatedRotationLaws : Obligations.RepeatedRotationLaws := by
  intro s k hk
  obtain ⟨t, hrun, ha, hc⟩ := execTimes_rlca k s
  refine ⟨t, hrun, fun j hj => ?_, ?_, fun hpos => ?_, fun h8 => ?_⟩
  · rw [ha, getLsbD_iterate_rotateLeftCircular k _ hj]
  · rw [ha, onesCount_iterate_rotateLeftCircular]
  · have hplace : (8 - k + (k - 1)) % 8 = 7 := by omega
    rw [hc (k - 1) (by omega), ← getLsbD_iterate_rotateLeftCircular (k - 1) s.r.a (j := 8 - k) (by omega), hplace, rotatedOut]
  · refine BitVec.eq_of_getLsbD_eq fun j hj => ?_
    have hplace : (j + 8) % 8 = j := by omega
    rw [ha, h8, ← getLsbD_iterate_rotateLeftCircular 8 s.r.a hj, hplace]

end Sys2Proof.Machine

/-!
PROOFS. 10_state.md sections 2, 5 and 9 and 20_memory.md section 6: what instructions and steps leave alone, and the reachable
states.
-/

namespace Sys2Proof.Machine

/-! ### The obligations on what an instruction writes -/

/-- Settles O37: the handler's frame, cell by cell, and the advance of pc by the length. -/
theorem everyInstructionStaysInItsWriteSet : Obligations.EveryInstructionStaysInItsWriteSet := by
  intro i s
  obtain ⟨hpc, hsp, hfault⟩ := handled_frame s i
  refine ⟨_, exec_eq s i, fun x hx => getReg_handled_of_not_mem s hx, hsp, hfault, ?_⟩
  rw [advancePc_pc, hpc]

/-- Settles O38: the other instructions have no data writes. -/
theorem onlyTheTwoStoresWriteMemory : Obligations.OnlyTheTwoStoresWriteMemory := by
  intro i s hldBCA hldnnSP
  have hnone : dataWrites i s = [] := by
    cases i with
    | ldBCA => exact absurd rfl hldBCA
    | ldnnSP nn => exact absurd rfl (hldnnSP nn)
    | _ => rfl
  refine ⟨_, exec_eq s i, ?_⟩
  rw [advancePc_mem, handled_mem, hnone, List.foldl_nil]

/-- Settles O39: INC B, DEC B and RLCA end in `set_flags`; the others do not list F in the access table. -/
theorem strayLowBitsOfFAreClearedOrKept : Obligations.StrayLowBitsOfFAreClearedOrKept := by
  intro i s
  refine ⟨_, exec_eq s i, ?_⟩
  cases i with
  | incB | decB | rlca => exact State.getReg_f_setFlags_low _ _ _ _ _
  | _ => exact getReg_handled_of_not_mem s (x := .f) (by simp [registerWrites])

/-! ### The obligations on two steps compared -/

/-- Settles O40: the fetch depends on memory and pc alone, and no handler names D, E, H or L. -/
theorem registersDEHLAreInert : Obligations.RegistersDEHLAreInert := by
  intro s d e h l
  have hfetch : fetch (s.withDEHL d e h l) = fetch s := fetch_congr rfl rfl
  refine exists_step_next s (fun hstopped => ⟨⟨rfl, rfl, rfl, rfl⟩, step_of_stopped hstopped⟩)
    (fun op hrun hop => ⟨⟨rfl, rfl, rfl, rfl⟩, step_of_unrecognized hrun (hfetch.trans hop)⟩)
    fun i hrun hi => ⟨handled_dehl i s, (step_of_insn (s := s.withDEHL d e h l) hrun (hfetch.trans hi)).trans ?_⟩
  rw [handled_withDEHL]
  rfl

/-- A step of a state with F replaced answers the next state with F replaced by something. -/
theorem step_setReg_f (s : State) (v : Byte) :
    ∃ t, step s = .next t ∧ ∃ w, step (s.setReg .f v) = .next (t.setReg .f w) := by
  have hfetch : fetch (s.setReg .f v) = fetch s := fetch_congr rfl rfl
  refine exists_step_next s (fun hstopped => ⟨v, step_of_stopped hstopped⟩)
    (fun op hrun hop => ⟨v, step_of_unrecognized hrun (hfetch.trans hop)⟩) fun i hrun hi => ?_
  obtain ⟨w, hw⟩ := handled_setReg_f i s v
  refine ⟨w, (step_of_insn (s := s.setReg .f v) hrun (hfetch.trans hi)).trans ?_⟩
  rw [hw]
  rfl

/-- Settles O41: the two next states are one but for F. -/
theorem flagsNeverSteerExecution : Obligations.FlagsNeverSteerExecution := by
  intro s v
  obtain ⟨t, ht, w, hu⟩ := step_setReg_f s v
  exact ⟨t, _, ht, hu, fun x hx => State.getReg_setReg_ne t w hx, rfl, rfl, rfl, rfl⟩

/-! ### The obligations on reachable states -/

/-- Settles O42: no memory is listed and F is 0. -/
theorem powerOnMeetsTheMachineInvariant : Obligations.PowerOnMeetsTheMachineInvariant := by
  unfold Obligations.PowerOnMeetsTheMachineInvariant
  decide

/-- Settles O44: every piece named is 0 there. -/
theorem powerOnMeetsTheReachableFacts : Obligations.PowerOnMeetsTheReachableFacts := by
  unfold Obligations.PowerOnMeetsTheReachableFacts
  decide

/-- What holds of every loaded power-on state and is kept by every step holds of every reachable state. -/
theorem Reachable.of_invariant {cfg : Config} {P : State → Prop}
    (hload : ∀ image s, romLoad cfg image State.reset = .next s → P s)
    (hstep : ∀ s, P s → ∃ t, step s = .next t ∧ P t) {s : State} (hs : Reachable cfg s) : P s := by
  induction hs with
  | loaded image s h => exact hload image s h
  | stepped s t _ h ih =>
    obtain ⟨t', ht', hP⟩ := hstep s ih
    rwa [Host.Outcome.next.inj (h.symm.trans ht')]

/-- Settles O46: a load keeps the canonical form and touches no register, and each invariant is kept by every step. -/
theorem reachableStatesMeetBothInvariants : Obligations.ReachableStatesMeetBothInvariants := by
  refine fun cfg s hs => ⟨hs.of_invariant (fun image s h => ?_) everyStepKeepsTheMachineInvariant,
    hs.of_invariant (fun image s h => ?_) everyStepKeepsTheReachableFacts⟩
  · obtain ⟨hmem, hF⟩ := powerOnMeetsTheMachineInvariant
    obtain ⟨hfits, rfl⟩ := load_next h
    exact ⟨Memory.storeAll_wf hmem hfits, hF⟩
  · obtain ⟨-, rfl⟩ := load_next h
    exact powerOnMeetsTheReachableFacts

end Sys2Proof.Machine

/-!
PROOFS. 20_memory.md sections 4 and 6: the bus history of a step, and a store ahead of pc.
-/

namespace Sys2Proof.Machine

/-! ### The reads (rules R49 and R59) -/

theorem fetchLength_of_insn {s : State} {i : Instr} (h : fetch s = .insn i) : fetchLength s = i.length := by
  rw [fetchLength, (fetch_eq_insn_iff.mp h).1, decodeOpcode_byte]
  rfl

theorem fetchLength_of_unrecognized {s : State} {op : Byte} (h : fetch s = .unrecognized op) : fetchLength s = 1 := by
  obtain ⟨-, hop⟩ := fetch_eq_unrecognized_iff.mp h
  rw [fetchLength, decodeOpcode_eq_unrecognized_iff_le.mpr hop]

/-- An unrecognized byte is no byte of the table. -/
theorem ne_of_toNat_ge {op v : Byte} (hop : 0x09 ≤ op.toNat) (hv : v.toNat < 0x09) : op ≠ v := by
  rintro rfl
  omega

/-- The addresses of a fetch by the byte at pc. -/
theorem fetchAddresses_eq (s : State) : fetchAddresses s =
    if s.readByte s.pc = 0x01 ∨ s.readByte s.pc = 0x08 then [s.pc, s.pc + 1, s.pc + 2]
    else if s.readByte s.pc = 0x06 then [s.pc, s.pc + 1] else [s.pc] := by
  cases hf : fetch s with
  | insn i =>
    obtain ⟨hop, -⟩ := fetch_eq_insn_iff.mp hf
    rw [fetchAddresses, fetchLength_of_insn hf, hop]
    cases i <;> simp [Instr.length, Instr.opcode, Opcode.length, Opcode.format, Format.length, Opcode.byte, List.range_succ]
  | unrecognized op =>
    obtain ⟨-, hop⟩ := fetch_eq_unrecognized_iff.mp hf
    rw [fetchAddresses, fetchLength_of_unrecognized hf, if_neg (ne_of_toNat_ge hop (by decide)),
      if_neg (not_or_intro (ne_of_toNat_ge hop (by decide)) (ne_of_toNat_ge hop (by decide)))]
    exact congrArg (fun a => [a]) (BitVec.add_zero s.pc)

theorem fetchAddresses_nodup (s : State) : (fetchAddresses s).Nodup := by
  rw [fetchAddresses_eq]
  split_ifs <;> simp

/-! ### The writes (rule R49) -/

/-- The data writes of the step taken at a running state. -/
def stepWrites (s : State) : List (Word × Byte) :=
  match fetch s with
  | .insn i => dataWrites i s
  | .unrecognized _ => []

theorem stepWrites_of_insn {s : State} {i : Instr} (h : fetch s = .insn i) : stepWrites s = dataWrites i s := by
  rw [stepWrites, h]

theorem stepWrites_of_unrecognized {s : State} {op : Byte} (h : fetch s = .unrecognized op) : stepWrites s = [] := by
  rw [stepWrites, h]

/-- The data writes by the byte at pc. -/
theorem stepWrites_eq (s : State) : stepWrites s =
    if s.readByte s.pc = 0x02 then [(addressBC s, s.r.a)]
    else if s.readByte s.pc = 0x08 then
      [(immediate16 s, s.sp.extractLsb' 0 8), (immediate16 s + 1, s.sp.extractLsb' 8 8)]
    else [] := by
  cases hf : fetch s with
  | insn i =>
    obtain ⟨hop, hi⟩ := fetch_eq_insn_iff.mp hf
    rw [stepWrites_of_insn hf, hop]
    cases i with
    | ldnnSP nn =>
      obtain rfl := Instr.ldnnSP.inj hi
      rfl
    | _ => rfl
  | unrecognized op =>
    obtain ⟨-, hop⟩ := fetch_eq_unrecognized_iff.mp hf
    rw [stepWrites_of_unrecognized hf, if_neg (ne_of_toNat_ge hop (by decide)), if_neg (ne_of_toNat_ge hop (by decide))]

theorem length_stepWrites_le (s : State) : (stepWrites s).length ≤ 2 := by
  rw [stepWrites_eq]
  split_ifs <;> simp

/-! ### The history of a step (decisions D12 and D21) -/

theorem stepAccesses_of_stopped {s : State} (h : s.fault.isSome = true) : stepAccesses s = [] := by
  obtain ⟨x, hx⟩ := Option.isSome_iff_exists.mp h
  rw [stepAccesses, hx]

theorem stepAccesses_of_running {s : State} (hrun : s.fault = none) : stepAccesses s =
    (fetchAddresses s).map (fun a => .read a (s.readByte a)) ++ (stepWrites s).map fun w => .write w.1 w.2 := by
  rw [stepAccesses, hrun, stepWrites]
  cases fetch s <;> rfl

theorem foldl_apply_reads (m : Memory) (s : State) (as : List Word) :
    (as.map fun a => BusAccess.read a (s.readByte a)).foldl BusAccess.apply m = m := by
  rw [List.foldl_map]
  exact List.foldl_fixed as

/-- Replaying a running step's history is replaying its writes. -/
theorem replay_of_running {s : State} (hrun : s.fault = none) : (stepAccesses s).foldl BusAccess.apply s.mem =
    (stepWrites s).foldl (fun m w => m.writeByte w.1 w.2) s.mem := by
  rw [stepAccesses_of_running hrun, List.foldl_append, foldl_apply_reads, List.foldl_map]
  rfl

theorem exists_step_replay (s : State) :
    ∃ t, step s = .next t ∧ (stepAccesses s).foldl BusAccess.apply s.mem = t.mem := by
  refine exists_step_next s (fun hstopped => ?_) (fun op hrun hop => ?_) fun i hrun hi => ?_
  · rw [stepAccesses_of_stopped hstopped, List.foldl_nil]
  · rw [replay_of_running hrun, stepWrites_of_unrecognized hop]
    rfl
  · rw [replay_of_running hrun, stepWrites_of_insn hi, advancePc_mem, handled_mem]

theorem length_fetchAddresses_bounds (s : State) : 1 ≤ (fetchAddresses s).length ∧ (fetchAddresses s).length ≤ 3 := by
  rw [fetchAddresses_eq]
  split_ifs <;> simp

theorem length_stepAccesses_of_running {s : State} (hrun : s.fault = none) :
    (stepAccesses s).length = (fetchAddresses s).length + (stepWrites s).length := by
  rw [stepAccesses_of_running hrun, List.length_append, List.length_map, List.length_map]

/-- Reads are answered from the memory before the step; a stopped core makes none. -/
theorem eq_readByte_of_read_mem {s : State} {a : Word} {v : Byte} (h : BusAccess.read a v ∈ stepAccesses s) :
    v = s.readByte a := by
  have hrun : s.fault = none := Option.not_isSome_iff_eq_none.mp fun hstopped => by
    rw [stepAccesses_of_stopped hstopped] at h
    cases h
  rw [stepAccesses_of_running hrun, List.mem_append, List.mem_map, List.mem_map] at h
  obtain ⟨b, -, hb⟩ | ⟨w, -, hw⟩ := h
  · obtain ⟨rfl, rfl⟩ := BusAccess.read.inj hb
    rfl
  · cases hw

/-! ### The obligations -/

/-- Settles O47: the history is the fetch's reads and the data writes, and the writes are what the step does to memory. -/
theorem busHistoryReplaysToTheNewMemory : Obligations.BusHistoryReplaysToTheNewMemory := by
  intro s
  obtain ⟨t, hstep, hreplay⟩ := exists_step_replay s
  refine ⟨t, hstep, hreplay, ?_, fun hrun => ?_, stepAccesses_of_stopped, fun _ _ => eq_readByte_of_read_mem,
    fetchAddresses_nodup s, fetchAddresses_eq s, fun hrun => ?_⟩
  · by_cases hstopped : s.fault.isSome = true
    · simp [stepAccesses_of_stopped hstopped]
    · have hreads := length_fetchAddresses_bounds s
      have hwrites := length_stepWrites_le s
      have hlength := length_stepAccesses_of_running (Option.not_isSome_iff_eq_none.mp hstopped)
      omega
  · have hreads := length_fetchAddresses_bounds s
    have hlength := length_stepAccesses_of_running hrun
    omega
  · rw [stepAccesses_of_running hrun, stepWrites_eq]
    split_ifs <;> rfl

/-- Settles O48: the byte write is the handler's last effect on memory, and the fetch was before it. -/
theorem storeAheadOfPcIsWhatTheNextStepFetches : Obligations.StoreAheadOfPcIsWhatTheNextStepFetches := by
  intro s hrun hop
  have hfetch : fetch s = .insn .ldBCA := fetch_eq_insn_iff.mpr ⟨hop, rfl⟩
  have hread (a : Word) (ha : addressBC s = a) : (s.writeByte (addressBC s) s.r.a).readByte a = s.r.a := by
    rw [ha, State.readByte_writeByte_same]
  exact ⟨_, step_of_insn hrun hfetch, rfl, hrun, hread (s.pc + 1), fun hown => ⟨hread s.pc hown, rfl⟩⟩

end Sys2Proof.Machine

/-!
PROOFS. 50_interfaces.md sections 2 and 3 and 60_exceptions.md section 1: boot, the host's moves, and the dump.
-/

namespace Sys2Proof.Machine

/-! ### The dump of a step (rule R116) -/

theorem stepDump_of_stopped (cfg : Config) {s : State} (h : s.fault.isSome = true) : stepDump cfg s = none := by
  obtain ⟨x, hx⟩ := Option.isSome_iff_exists.mp h
  rw [stepDump, hx]

theorem stepDump_of_unrecognized (cfg : Config) {s : State} {op : Byte} (h : fetch s = .unrecognized op) :
    stepDump cfg s = none := by
  rw [stepDump, h]
  cases s.fault <;> rfl

theorem stepDump_of_insn (cfg : Config) {s t : State} {i : Instr} (hrun : s.fault = none) (h : fetch s = .insn i)
    (ht : exec i s = .next t) : stepDump cfg s =
      if cfg.diagTrigger = some i.opcode.byte then some ⟨registerDump t (dumpPc s.pc t.pc), i.opcode.byte⟩ else none := by
  simp only [stepDump, hrun, h, ht]

theorem stepDump_eq_some_iff (cfg : Config) (s : State) (d : Dump) : stepDump cfg s = some d ↔
    ∃ t, step s = .next t ∧ s.fault = none ∧ (s.readByte s.pc).toNat ≤ 0x08 ∧ cfg.diagTrigger = some (s.readByte s.pc) ∧
      ⟨registerDump t (dumpPc s.pc t.pc), s.readByte s.pc⟩ = d := by
  by_cases hrun : s.fault = none
  case neg =>
    simp [stepDump_of_stopped cfg (Option.isSome_iff_ne_none.mpr hrun), hrun]
  case pos =>
    cases hf : fetch s with
    | insn i =>
      have hle := exists_fetch_eq_insn_iff.mp ⟨i, hf⟩
      obtain ⟨hop, -⟩ := fetch_eq_insn_iff.mp hf
      rw [stepDump_of_insn cfg hrun hf (exec_eq s i), step_of_insn hrun hf, ← hop]
      simp [hrun, hle]
    | unrecognized op =>
      obtain ⟨-, hge⟩ := fetch_eq_unrecognized_iff.mp hf
      simp [stepDump_of_unrecognized cfg hf, Nat.not_le_of_lt hge]

theorem dumpPc_eq_or (before after : Word) : dumpPc before after = before ∨ dumpPc before after = after := by
  unfold dumpPc
  split
  · exact .inr rfl
  · exact .inl rfl

/-! ### The obligations -/

/-- Settles O54: the dump is that of the state the step answers, and every step answers one. -/
theorem dumpFollowsTheTriggerOpcode : Obligations.DumpFollowsTheTriggerOpcode := by
  refine fun cfg s => ⟨?_, fun d hd => ?_⟩
  · rw [Option.isSome_iff_exists]
    simp only [stepDump_eq_some_iff]
    constructor
    · rintro ⟨d, t, -, hrun, hle, htrigger, -⟩
      exact ⟨hrun, hle, htrigger⟩
    · rintro ⟨hrun, hle, htrigger⟩
      obtain ⟨t, hstep⟩ := exists_step s
      exact ⟨_, t, hstep, hrun, hle, htrigger, rfl⟩
  · obtain ⟨t, hstep, -, -, -, rfl⟩ := (stepDump_eq_some_iff cfg s d).mp hd
    exact ⟨t, hstep, rfl, rfl, rfl, rfl, rfl, rfl, rfl, dumpPc_eq_or s.pc t.pc⟩

/-- Settles O50: the load's effect on the power-on state. -/
theorem bootStartsAtAddressZero : Obligations.BootStartsAtAddressZero := by
  intro cfg image hfits
  obtain ⟨s, hload, hinside, houtside, hr, hpc, hsp, hfault⟩ :=
    (loadPlacesTheBytesOrFails cfg.loadBase image State.reset).1 hfits
  refine ⟨s, [.nothing, .loaded], ?_, hpc, hsp, hfault, fun x => ?_, hinside, houtside⟩
  · simp only [hostMoves, hostMove, romLoad, hload]
  · rw [State.getReg, hr]
    exact State.getReg_reset x

/-- Settles O51: the load faults, and a sequence of moves ends at its first fault. -/
theorem oversizedImageHasNoRun : Obligations.OversizedImageHasNoRun := by
  intro cfg s image moves hlong
  simp only [hostMoves, hostMove, romLoad, load_of_too_long s hlong]

/-- Settles O52, phase by phase and move by move. -/
theorem onlyStepsChangeARunningCore : Obligations.OnlyStepsChangeARunningCore := by
  refine fun cfg s => ⟨fun move t reply h => ?_, fun _ => rfl, rfl, ?_, rfl, fun move hmove => ?_,
    fun session hsession => ?_, fun _ => rfl⟩
  · cases move with
    | step =>
      obtain ⟨s', t', hs, hstep, ht⟩ := (hostMove_step_eq_next_iff cfg (.running s) (.running t)).mp ⟨reply, h⟩
      cases hs
      cases ht
      exact ⟨rfl, hstep⟩
    | _ => cases h
  · obtain ⟨t, hstep⟩ := exists_step s
    exact ⟨t, hstep, by rw [hostMove, hstep]⟩
  · cases move with
    | endSession dump => exact absurd rfl (hmove dump)
    | _ => rfl
  · obtain rfl | rfl | rfl := hsession <;> exact ⟨rfl, rfl⟩

end Sys2Proof.Machine
